-- ==== Sys2Proof/Word.lean ====
section
/-! DEFINITION. The widths of the CAU: the 32-bit word of a register, a command, an output word and a table entry
(R5 `XLEN`, `CMDW`, `FLEN`), the 8-bit channel (R5 `CHW`), the 16-bit immediate (R48), the register number (R10). -/

namespace Sys2Proof

/-- A 32-bit word: a register, a command word, an output word, a table entry (R5, R10, R45, R30). Bit 0 is the least
significant bit (R6). Nothing in the block is addressed by bytes, so no byte order arises (R35). -/
abbrev Word := BitVec 32

/-- An 8-bit colour channel, or an 8-bit table index (R5 `CHW`, R11, R30). -/
abbrev Chan := BitVec 8

/-- The only immediate, `imm16` (R48). -/
abbrev Imm16 := BitVec 16

/-- The number of a general register: all eight values 0 to 7 name a register, so no number is illegal (R10, R102). -/
abbrev RegNum := Fin 8

end Sys2Proof
end

