-- ==== Sys2Proof/Syntax.lean ====
section
/-! DEFINITION. The instructions: one constructor for each of the eleven rows of spec/opcode_table.json (R50). Operands
stand in the order of the assembler: destination first, then `ra`, `rb`, `rc` (R54). -/

namespace Sys2Proof

/-- A command of CAU-1.0 (R50). The fields a command does not use have no place here: decoding requires them to be zero
(R49), so every term of this type is the meaning of exactly one legal word. -/
inductive Instr where
  /-- `MUL rd, ra, rb`: fixed-point product of two channels (R62). -/
  | mul (rd ra rb : RegNum)
  /-- `DIVMUL rd, ra, rb`: saturating quotient of two channels (R64). -/
  | divmul (rd ra rb : RegNum)
  /-- `LERP rd, ra, rb, rc`: one channel moved from p toward q by a weight (R66). -/
  | lerp (rd ra rb rc : RegNum)
  /-- `PRELERP rd, ra, rb, rc`: premultiplied composite of one channel (R68). -/
  | prelerp (rd ra rb rc : RegNum)
  /-- `LERP4 rd, ra, rb, rc`: `Lerp` on the four lanes of a packed colour (R69). -/
  | lerp4 (rd ra rb rc : RegNum)
  /-- `S2L rd, ra`: StandardRgb code to linear float by table read (R84). -/
  | s2l (rd ra : RegNum)
  /-- `L2S rd, ra`: linear float to StandardRgb code by threshold count (R85). -/
  | l2s (rd ra : RegNum)
  /-- `QNT rd, ra`: float channel to 8 bits, clamped (R91). -/
  | qnt (rd ra : RegNum)
  /-- `LDI rd, imm16`: load a 16-bit constant, clearing the upper half (R95). -/
  | ldi (rd : RegNum) (imm : Imm16)
  /-- `LDIH rd, imm16`: load the upper half, keeping the lower half (R96). -/
  | ldih (rd : RegNum) (imm : Imm16)
  /-- `OUT ra`: append a register to the output stream (R97). -/
  | out (ra : RegNum)
  deriving DecidableEq, Repr

end Sys2Proof
end

