-- ==== Sys2Proof/Decode.lean ====
section
/-! DEFINITION. The command encoding (30_encoding.md): fields of a word, the opcode map, the strict and total decoder, and
after it the encoder. -/

namespace Sys2Proof

/-! ## Fields of a word (R46, R47, R48) -/

/-- `op = w[31:24]`. -/
def opOf (w : Word) : BitVec 8 := w.extractLsb' 24 8
/-- `rd = w[23:21]`. -/
def rdOf (w : Word) : RegNum := (w.extractLsb' 21 3).toFin
/-- `ra = w[20:18]`. -/
def raOf (w : Word) : RegNum := (w.extractLsb' 18 3).toFin
/-- `rb = w[17:15]`. -/
def rbOf (w : Word) : RegNum := (w.extractLsb' 15 3).toFin
/-- `rc = w[14:12]`. -/
def rcOf (w : Word) : RegNum := (w.extractLsb' 12 3).toFin
/-- `imm16 = w[15:0]`. -/
def imm16Of (w : Word) : Imm16 := w.extractLsb' 0 16

/-! ## The opcode map (R50) -/

/-- The eleven assigned operation codes. -/
inductive Opcode where
  | mul | divmul | lerp | prelerp | lerp4 | s2l | l2s | qnt | ldi | ldih | out
  deriving DecidableEq, Repr

/-- Every assigned operation code, in the order of the map (R50). -/
def Opcode.all : List Opcode :=
  [.mul, .divmul, .lerp, .prelerp, .lerp4, .s2l, .l2s, .qnt, .ldi, .ldih, .out]

/-- Column `op` of R50. -/
def Opcode.code : Opcode → BitVec 8
  | .mul => 0x10#8
  | .divmul => 0x11#8
  | .lerp => 0x12#8
  | .prelerp => 0x13#8
  | .lerp4 => 0x18#8
  | .s2l => 0x20#8
  | .l2s => 0x21#8
  | .qnt => 0x28#8
  | .ldi => 0x30#8
  | .ldih => 0x31#8
  | .out => 0x38#8

/-- Column `match` of R50: `op * 2^24` (R49). -/
def Opcode.pattern (o : Opcode) : Word := o.code ++ 0#24

/-- Column `mask` of R50: the `op` bits and every bit the command requires to be zero (R49). -/
def Opcode.mask : Opcode → Word
  | .mul => 0xFF007FFF#32
  | .divmul => 0xFF007FFF#32
  | .lerp => 0xFF000FFF#32
  | .prelerp => 0xFF000FFF#32
  | .lerp4 => 0xFF000FFF#32
  | .s2l => 0xFF03FFFF#32
  | .l2s => 0xFF03FFFF#32
  | .qnt => 0xFF03FFFF#32
  | .ldi => 0xFF1F0000#32
  | .ldih => 0xFF1F0000#32
  | .out => 0xFFE3FFFF#32

/-- The row whose `op` is `b`, if `b` is assigned (R49): all 8 bits are compared (R50). -/
def Opcode.ofCode (b : BitVec 8) : Option Opcode := Opcode.all.find? (fun o => o.code == b)

/-- The command of a row with its operands taken from the word (R48, R49). -/
def Opcode.operands (o : Opcode) (w : Word) : Instr :=
  match o with
  | .mul => .mul (rdOf w) (raOf w) (rbOf w)
  | .divmul => .divmul (rdOf w) (raOf w) (rbOf w)
  | .lerp => .lerp (rdOf w) (raOf w) (rbOf w) (rcOf w)
  | .prelerp => .prelerp (rdOf w) (raOf w) (rbOf w) (rcOf w)
  | .lerp4 => .lerp4 (rdOf w) (raOf w) (rbOf w) (rcOf w)
  | .s2l => .s2l (rdOf w) (raOf w)
  | .l2s => .l2s (rdOf w) (raOf w)
  | .qnt => .qnt (rdOf w) (raOf w)
  | .ldi => .ldi (rdOf w) (imm16Of w)
  | .ldih => .ldih (rdOf w) (imm16Of w)
  | .out => .out (raOf w)

/-! ## Decoding (R49) -/

/-- Why a word is not a command (R51, R102). Both raise the one exception `IllegalCommand`; the name is the model's record
of which case of R102 holds and is stored nowhere in the machine (R106). -/
inductive IllegalReason where
  /-- Case (1) of R102: `w[31:24]` is not one of the eleven operation codes. -/
  | unassignedOpcode (op : BitVec 8)
  /-- Case (2) of R102: the operation code is assigned and a bit it requires to be zero is 1. -/
  | nonzeroMustBeZero (op : Opcode)
  deriving DecidableEq, Repr

/-- Strict and total decoding of a 32-bit word (R49). -/
def decode (w : Word) : Except IllegalReason Instr :=
  match Opcode.ofCode (opOf w) with
  | none => .error (.unassignedOpcode (opOf w))
  | some o => if w &&& o.mask = o.pattern then .ok (o.operands w) else .error (.nonzeroMustBeZero o)

/-- The instruction the decoder reads from an opcode-table word `w` of `nbits` bits: bits at or above `nbits` are zero, the
command is one 32-bit word (R45), and there is no byte order (R35). -/
def decodeTableWord (nbits w : Nat) : Option Instr :=
  match decode (BitVec.ofNat 32 (w % 2 ^ nbits)) with
  | .ok i => some i
  | .error _ => none

/-! ## Encoding -/

/-- The three bits of a register field (R46). -/
def regBits (r : RegNum) : BitVec 3 := BitVec.ofFin r

/-- Format R, written from bit 31 down: `op rd ra rb rc z12` (R46). -/
def formatR (op : BitVec 8) (rd ra rb rc : RegNum) (z12 : BitVec 12) : Word :=
  op ++ regBits rd ++ regBits ra ++ regBits rb ++ regBits rc ++ z12

/-- Format I, written from bit 31 down: `op rd z5 imm16` (R47). -/
def formatI (op : BitVec 8) (rd : RegNum) (z5 : BitVec 5) (imm : Imm16) : Word :=
  op ++ regBits rd ++ z5 ++ imm

/-- The row of the opcode map a command belongs to (R50). -/
def opcodeOf : Instr → Opcode
  | .mul _ _ _ => .mul
  | .divmul _ _ _ => .divmul
  | .lerp _ _ _ _ => .lerp
  | .prelerp _ _ _ _ => .prelerp
  | .lerp4 _ _ _ _ => .lerp4
  | .s2l _ _ => .s2l
  | .l2s _ _ => .l2s
  | .qnt _ _ => .qnt
  | .ldi _ _ => .ldi
  | .ldih _ _ => .ldih
  | .out _ => .out

/-- The word of an instruction: its row's format with every unused field zero (R46, R47, R49, R50). -/
def encode : Instr → Word
  | .mul rd ra rb => formatR 0x10#8 rd ra rb 0 0#12
  | .divmul rd ra rb => formatR 0x11#8 rd ra rb 0 0#12
  | .lerp rd ra rb rc => formatR 0x12#8 rd ra rb rc 0#12
  | .prelerp rd ra rb rc => formatR 0x13#8 rd ra rb rc 0#12
  | .lerp4 rd ra rb rc => formatR 0x18#8 rd ra rb rc 0#12
  | .s2l rd ra => formatR 0x20#8 rd ra 0 0 0#12
  | .l2s rd ra => formatR 0x21#8 rd ra 0 0 0#12
  | .qnt rd ra => formatR 0x28#8 rd ra 0 0 0#12
  | .ldi rd imm => formatI 0x30#8 rd 0#5 imm
  | .ldih rd imm => formatI 0x31#8 rd 0#5 imm
  | .out ra => formatR 0x38#8 0 ra 0 0 0#12

end Sys2Proof
end

