-- ==== Sys2Proof/Machine/State.lean ====
section
/-! DEFINITION. The state of one CAU instance (10_state.md), the events of its ports, the outcomes other than a next state,
and the state after reset. -/

namespace Sys2Proof.Machine

/-- What the host does at the ports between two steps (R21, R125): one event is consumed by one step of the model. -/
inductive HostEvent where
  /-- A word is delivered on the command port: `cmd_valid` and `cmd_ready` are both 1 (R21). -/
  | deliver (w : Word)
  /-- `rst` is asserted and released (R120); `offered` is a word on the command port at the same moment, which is not
  delivered, because reset wins (R106, R121). -/
  | reset (offered : Option Word)
  /-- The host is ready to take an output word: `out_ready` is 1 (R21, R125). -/
  | takeOut
  deriving DecidableEq, Repr

/-- The state. `x`, `out`, `fault`, `fword` are the spec's four pieces of state (10_state.md section 1); `pending`,
`taken`, `received` are the model's own record of the ports of R21 (log entries 2 and 3), which no command reads or
writes. -/
structure State where
  /-- `x[0]` .. `x[7]`, 32 bits each, no register hard-wired (R10). -/
  x : Vector Word 8
  /-- `OUT`: every word sent since reset, oldest first, unbounded (R18). -/
  out : List Word
  /-- `FAULT`: true is 1, an `IllegalCommand` has been taken since reset (R16, R101). -/
  fault : Bool
  /-- `FWORD`: the word that raised the exception; 0 while there is none (R17). -/
  fword : Word
  /-- What the host will do next at the ports, oldest first (R21, R24): the model's own field. -/
  pending : List HostEvent
  /-- How many words of `out` have left through the output port (R21, R125): the model's own field. -/
  taken : Nat
  /-- The words the host has taken, oldest first; a reset does not take them back (R121): the model's own field. -/
  received : List Word
  deriving DecidableEq, Repr

/-- The reasons for which a step could stop the machine with a fault: none. No legal command raises an exception (R100),
the one exception of the block is a next state (R103), and every step finishes (R129); so this type has no constructor
and that no step faults holds by its type. Safe: nothing is stopped that the block would run. -/
inductive Fault where
  deriving DecidableEq, Repr

/-- The reasons for which a step could be refused. -/
inductive Refusal where
  /-- An instruction of the opcode table that this model gives no meaning, by its mnemonic. No arm of `exec` raises it:
  all eleven commands are modelled. It would be safe: a refusal proves nothing about the hardware. -/
  | notModelled (mnemonic : String)
  deriving DecidableEq, Repr

/-- The state after reset (R23): every register 0, `OUT` empty, `FAULT` and `FWORD` 0. At the ports nothing is pending
and nothing has been taken (log entries 2 and 3). -/
def State.reset : State where
  x := Vector.replicate 8 0#32
  out := []
  fault := false
  fword := 0#32
  pending := []
  taken := 0
  received := []

end Sys2Proof.Machine
end

