-- ==== Sys2Proof/Machine/Flags.lean ====
section
/-! DEFINITION. Flags: the block has none (R15). No command sets or reads a carry, overflow, zero, sign, saturation,
inexact or invalid flag; saturation, clamping and truncation leave no trace outside the result. The one status bit,
`FAULT`, is no flag of an arithmetic result; what the host sees of the state at the output ports stands here (R21). -/

namespace Sys2Proof.Machine

/-- Port `fault`: the current value of `FAULT` (R21); 1 is the cause code of `IllegalCommand` (R16, R101). -/
def State.faultPort (s : State) : BitVec 1 := BitVec.ofBool s.fault

/-- Port `fault_word`: the current value of `FWORD` (R21). -/
def State.faultWordPort (s : State) : Word := s.fword

/-- Port `out_valid`: a word of `OUT` has not been taken yet (R21). -/
def State.outValid (s : State) : Bool := s.taken < s.out.length

/-- Port `out_word`: the oldest word of `OUT` not taken yet; each word is presented once, in order (R21, R125). -/
def State.outWord (s : State) : Option Word := s.out[s.taken]?

/-- Port `cmd_ready`: while `rst` is asserted no word is delivered (R121); at every other moment of the model the block
takes the word it is offered (R104, R128). -/
def cmdReady : HostEvent → Bool
  | .reset _ => false
  | .deliver _ => true
  | .takeOut => true

end Sys2Proof.Machine
end

