-- ==== Sys2Proof/Machine/Operands.lean ====
section
/-! DEFINITION. The three views of a register (R11), the notation of R6 for fields, lanes and shifts, and the one way to
read and write a register (R12). There are no addressing modes (R48). -/

namespace Sys2Proof.Machine

/-! ## Notation (R6) -/

/-- `asr(t, n) = floor(t / 2^n)` on unbounded integers: toward minus infinity for a negative `t` (R6, D12). -/
def asr (t : Int) (n : Nat) : Int := t / 2 ^ n

/-- `trunc8(v) = v mod 256` (R6). -/
def trunc8 (v : Int) : Nat := (v % 256).toNat

/-- `zext32(v)`: an unsigned value in a word with zeros above it (R6). Every value the commands pass is below 2^16. -/
def zext32 (v : Nat) : Word := BitVec.ofNat 32 v

/-- `lane(v, k) = v[8k+7 : 8k]` for `k` in 0..3 (R6). -/
def lane (v : Word) (k : Nat) : Nat := (v.extractLsb' (8 * k) 8).toNat

/-- `pack(l3, l2, l1, l0) = l3*2^24 + l2*2^16 + l1*2^8 + l0` (R6). -/
def pack (l3 l2 l1 l0 : Nat) : Word := BitVec.ofNat 32 (l3 * 2 ^ 24 + l2 * 2 ^ 16 + l1 * 2 ^ 8 + l0)

/-- The channel view of a word: its low 8 bits, an integer 0..255; bits 31..8 are ignored (R11, R60). -/
def chanOf (w : Word) : Nat := (w.extractLsb' 0 8).toNat

/-! ## Registers (R10, R12) -/

/-- `x[r]`: all 32 bits; the packed view and the float view read this word (R11). A register that nothing has written
holds its reset value 0 (R13). -/
def State.readReg (s : State) (r : RegNum) : Word := s.x[r]

/-- `ch(r) = x[r][7:0]` (R6, R11). -/
def State.ch (s : State) (r : RegNum) : Nat := chanOf (s.readReg r)

/-- `x[r] <- v`: all 32 bits (R12). -/
def State.writeReg (s : State) (r : RegNum) (v : Word) : State := { s with x := s.x.set r v }

end Sys2Proof.Machine
end

