-- ==== Sys2Proof/Machine/Ops.lean ====
section
/-! DEFINITION. The shared operations: appending to the output stream, taking the one exception, reset (the only way out of
the faulted state), the output port, and fetching the next event of the host. -/

namespace Sys2Proof.Machine

/-- `OUT <- OUT ++ [w]`: appended exactly once; nothing already sent changes (R6, R18, R97). -/
def State.appendOut (s : State) (w : Word) : State := { s with out := s.out ++ [w] }

/-- TAKING `IllegalCommand(w)`: `FWORD <- w` and `FAULT <- 1` in one atomic step, and nothing else changes (R103). The
block has no handler, no vector, no saved pc, status or mode. -/
def State.raiseIllegal (s : State) (w : Word) : State := { s with fword := w, fault := true }

/-- RETURNING from the exception does not exist (R105): reset, which puts every piece of the block's state at its reset
value, is the only way to leave the faulted state (R120, R23). The words already taken by the host stay taken and words not
yet taken are lost with `OUT` (R121); what the host will do next is the host's own. -/
def State.hostReset (s : State) : State :=
  { State.reset with pending := s.pending, received := s.received }

/-- The output port with `out_ready` = 1: if a word is waiting (`out_valid`), the oldest one leaves; `OUT` itself, the
history of what was sent, does not change (R18, R21, R125). -/
def State.takeOutput (s : State) : State :=
  match s.outWord with
  | some w => { s with taken := s.taken + 1, received := s.received ++ [w] }
  | none => s

/-- The next event of the host and the state in which it has been consumed (R21, R40); none when nothing is pending. -/
def State.nextEvent (s : State) : Option (HostEvent × State) :=
  match s.pending with
  | [] => none
  | e :: rest => some (e, { s with pending := rest })

/-- The host puts an event before everything else it will do. -/
def State.offer (s : State) (e : HostEvent) : State := { s with pending := e :: s.pending }

end Sys2Proof.Machine
end

