-- ==== Sys2Proof/Machine/Blend.lean ====
section
/-! DEFINITION. The five blend commands (40_blend.md): the kernels as functions on mathematical integers, written as the
rules print them, and the meaning of each command over them. -/

namespace Sys2Proof.Machine

/-! ## Kernels, for operands 0..255 in which 255 represents 1.0 (R60) -/

/-- `Multiply(a, b)` (R61): the integer nearest to `a*b/255`. -/
def multiply (a b : Nat) : Nat :=
  let p := a * b + 128
  (p / 2 ^ 8 + p) / 2 ^ 8

/-- `DividMultiply(a, b)` (R63): the zero test comes first (C6), then saturation, then round half up (D16). -/
def dividMultiply (a b : Nat) : Nat :=
  if a = 0 ∨ b = 0 then 0
  else if a ≥ b then 255
  else (a * 255 + b / 2) / b

/-- `Lerp(p, q, a)` (R65): only the bracketed sum is shifted (C3), with the flooring shift (D12). -/
def lerp (p q a : Nat) : Nat :=
  let c : Int := if p > q then 1 else 0
  let t : Int := ((q : Int) - (p : Int)) * (a : Int) + 128 - c
  let d : Int := asr (asr t 8 + t) 8
  trunc8 ((p : Int) + d)

/-- `Prelerp(p, q, a)` (R67): modulo 256, no saturation (D15). -/
def prelerp (p q a : Nat) : Nat :=
  let s : Int := (p : Int) + (q : Int) - (multiply p a : Int)
  trunc8 s

/-- `Lerp` on each of the four lanes with one weight; no carry passes between lanes (R69). -/
def lerp4 (p q : Word) (a : Nat) : Word :=
  pack (lerp (lane p 3) (lane q 3) a) (lerp (lane p 2) (lane q 2) a)
    (lerp (lane p 1) (lane q 1) a) (lerp (lane p 0) (lane q 0) a)

/-! ## Commands -/

/-- `MUL rd, ra, rb`: `x[rd] <- zext32(Multiply(ch(ra), ch(rb)))` (R62). -/
def execMul (rd ra rb : RegNum) (s : State) : Host.Outcome State Fault Refusal :=
  .next (s.writeReg rd (zext32 (multiply (s.ch ra) (s.ch rb))))

/-- `DIVMUL rd, ra, rb`: `x[rd] <- zext32(DividMultiply(ch(ra), ch(rb)))` (R64). -/
def execDivmul (rd ra rb : RegNum) (s : State) : Host.Outcome State Fault Refusal :=
  .next (s.writeReg rd (zext32 (dividMultiply (s.ch ra) (s.ch rb))))

/-- `LERP rd, ra, rb, rc`: `x[rd] <- zext32(Lerp(ch(ra), ch(rb), ch(rc)))` (R66). -/
def execLerp (rd ra rb rc : RegNum) (s : State) : Host.Outcome State Fault Refusal :=
  .next (s.writeReg rd (zext32 (lerp (s.ch ra) (s.ch rb) (s.ch rc))))

/-- `PRELERP rd, ra, rb, rc`: `x[rd] <- zext32(Prelerp(ch(ra), ch(rb), ch(rc)))` (R68). -/
def execPrelerp (rd ra rb rc : RegNum) (s : State) : Host.Outcome State Fault Refusal :=
  .next (s.writeReg rd (zext32 (prelerp (s.ch ra) (s.ch rb) (s.ch rc))))

/-- `LERP4 rd, ra, rb, rc`: packed colours in `x[ra]` and `x[rb]`, weight `ch(rc)` (R69). -/
def execLerp4 (rd ra rb rc : RegNum) (s : State) : Host.Outcome State Fault Refusal :=
  .next (s.writeReg rd (lerp4 (s.readReg ra) (s.readReg rb) (s.ch rc)))

end Sys2Proof.Machine
end

