-- ==== Sys2Proof/Config.lean ====
section
/-! DEFINITION. What an instance of the CAU fixes and the spec leaves open: the contents of the two gamma tables (R5,
R20, D21). Every other parameter of R5 is fixed and stands in a type: CHW, XLEN, FLEN and CMDW in Sys2Proof/Word.lean,
NREG in `RegNum`, NLANE in the four lanes of Machine/Operands.lean, ONE = 255 in the kernels of Machine/Blend.lean, and
the unbounded output stream in Machine/State.lean. -/

namespace Sys2Proof

/-- The two read-only tables of an instance, 256 words of 32 bits each (R20, R30): constants of the block, not state. -/
structure GammaRom where
  /-- `GAMMA_DIR`: the linear value of each StandardRgb code, a binary32 pattern (R80). -/
  dir : Vector Word 256
  /-- `GAMMA_INV`: the threshold below each code, a binary32 pattern; entry 0 is never read (R80, R83). -/
  inv : Vector Word 256
  deriving DecidableEq, Repr, Inhabited

/-- FREE VALUE, no body: any pair of tables at all (log entry 1). The machine does not read it directly but through
`Sys2Proof.Machine.gammaRom`, which is this pair whenever it satisfies R82 and R83. -/
opaque Config.rawGammaRom : GammaRom

end Sys2Proof
end

