-- ==== Sys2Proof/Machine/Float.lean ====
section
/-! DEFINITION. Binary32 patterns (R8) and the float helpers of R6. The block never computes a float: it compares two
(`L2S`), scales one exactly (`QNT`), copies stored ones (`S2L`). Every finite value is a whole multiple of 2^-149, so the
exact value is held as that whole number: comparison and scaling need no rounding and no rationals (R92 gives such a
recipe). -/

namespace Sys2Proof.Machine

/-- `sign(w) = w[31]` (R6, R8). -/
def fSign (w : Word) : Bool := w.getLsbD 31

/-- The biased exponent `e = w[30:23]` (R8). -/
def fExp (w : Word) : Nat := (w.extractLsb' 23 8).toNat

/-- The fraction `m = w[22:0]` (R8). -/
def fFrac (w : Word) : Nat := (w.extractLsb' 0 23).toNat

/-- `e = 255, m != 0`: a NaN, quiet or signalling, either sign (R8). -/
def isNaN (w : Word) : Bool := fExp w == 255 && fFrac w != 0

/-- `e = 255, m = 0`: an infinity of either sign (R8). -/
def isInf (w : Word) : Bool := fExp w == 255 && fFrac w == 0

/-- Neither a NaN nor an infinity: the pattern has a value `fval` (R8). -/
def isFinite (w : Word) : Bool := fExp w != 255

/-- The magnitude of a finite pattern in units of 2^-149 (R8): `m` for zero and subnormals, `(2^23 + m) * 2^(e-1)` for
normals, whose value is `(2^23 + m) * 2^(e-150)`. -/
def fMag (w : Word) : Nat :=
  if fExp w = 0 then fFrac w else (2 ^ 23 + fFrac w) * 2 ^ (fExp w - 1)

/-- The value of a finite pattern in units of 2^-149, with its sign; `-0` and `+0` are both 0 (R6, R8). -/
def fNum (w : Word) : Int := if fSign w then -(fMag w : Int) else (fMag w : Int)

/-- `fval(w)`: the exact rational value of a finite pattern (R6, R8). -/
def fval (w : Word) : Rat := (fNum w : Rat) / 2 ^ 149

/-- `fgt(a, b)`: the ordered comparison "a is greater than b" (R6): false when either is a NaN, `+inf` above and `-inf`
below every finite value, finite values by their exact value. -/
def fgt (a b : Word) : Bool :=
  if isNaN a || isNaN b then false
  else if isInf a then !fSign a && !(isInf b && !fSign b)
  else if isInf b then fSign b
  else decide (fNum b < fNum a)

end Sys2Proof.Machine
end

