-- ==== Sys2Proof/Machine/GammaTables.lean ====
section
/-! DEFINITION. The gamma tables of the block: the constraints every instance meets (R82, R83), the reference pair of R86,
and the tables this instance has, which are any pair that meets the constraints. -/

namespace Sys2Proof.Machine

/-- A finite, non-negative pattern: sign bit 0, exponent field not 255 (R82 (a), R83 (e)). -/
def isNonNegFinite (w : Word) : Bool := isFinite w && !fSign w

/-- R82 (a), for entry `i`: finite, non-negative, at most 1 (1 is 2^149 units of 2^-149). -/
def dirInUnit (g : GammaRom) (i : Fin 256) : Bool := isNonNegFinite g.dir[i] && decide (fMag g.dir[i] ≤ 2 ^ 149)

/-- R82 (c), for entries `i` and `i+1`: the entries do not decrease. -/
def dirRises (g : GammaRom) (i : Fin 255) : Bool := decide (fMag g.dir[i.castSucc] ≤ fMag g.dir[i.succ])

/-- R83 (e), for entry `i`: finite and non-negative. -/
def invFinite (g : GammaRom) (i : Fin 256) : Bool := isNonNegFinite g.inv[i]

/-- R83 (e), for entries `i` and `i+1`: the thresholds do not decrease. -/
def invRises (g : GammaRom) (i : Fin 255) : Bool := decide (fMag g.inv[i.castSucc] ≤ fMag g.inv[i.succ])

/-- R83 (f), for code `i`: the threshold lies strictly below the direct value of its own code. -/
def invBelowDir (g : GammaRom) (i : Fin 256) : Bool := decide (fMag g.inv[i] < fMag g.dir[i])

/-- R83 (g), for code `i+1`: the threshold lies at or above the direct value of the code below. -/
def invAboveDir (g : GammaRom) (i : Fin 255) : Bool := decide (fMag g.dir[i.castSucc] ≤ fMag g.inv[i.succ])

/-- R82 (a) to (d) and R83 (e) to (g): what every instance's tables satisfy, entry 0 of `GAMMA_INV` being free (U7).
Every entry compared is finite and non-negative, so values compare as their magnitudes; (d) is
`fval(GAMMA_DIR[128]) < 128/255`. -/
def admissible (g : GammaRom) : Bool :=
  (List.finRange 256).all (dirInUnit g)
  && g.dir[0] == 0x00000000#32 && g.dir[255] == 0x3F800000#32
  && (List.finRange 255).all (dirRises g)
  && decide (fMag g.dir[128] * 255 < 128 * 2 ^ 149)
  && (List.finRange 256).all (fun i => i == 0 || invFinite g i)
  && (List.finRange 255).all (fun i => i == 0 || invRises g i)
  && (List.finRange 256).all (fun i => i == 0 || invBelowDir g i)
  && (List.finRange 255).all (invAboveDir g)

/-- Entries 0 to 63 of `GAMMA_DIR_REF` (R86). -/
def gammaDirRef0 : List Word :=
  [0x00000000#32, 0x399F22B4#32, 0x3A1F22B4#32, 0x3A6EB40E#32, 0x3A9F22B4#32, 0x3AC6EB61#32, 0x3AEEB40E#32, 0x3B0B3E5D#32,
   0x3B1F22B4#32, 0x3B33070A#32, 0x3B46EB61#32, 0x3B5B518E#32, 0x3B70F18F#32, 0x3B83E1C6#32, 0x3B8FE616#32, 0x3B9C87FD#32,
   0x3BA9C9B6#32, 0x3BB7AD6F#32, 0x3BC6354A#32, 0x3BD56360#32, 0x3BE539C1#32, 0x3BF5BA71#32, 0x3C0373B6#32, 0x3C0C6153#32,
   0x3C15A705#32, 0x3C1F45BE#32, 0x3C293E6B#32, 0x3C3391F7#32, 0x3C3E4149#32, 0x3C494D44#32, 0x3C54B6C9#32, 0x3C607EB4#32,
   0x3C6CA5DF#32, 0x3C792D22#32, 0x3C830AA9#32, 0x3C89AF9F#32, 0x3C9085DC#32, 0x3C978DC6#32, 0x3C9EC7C2#32, 0x3CA63433#32,
   0x3CADD37D#32, 0x3CB5A602#32, 0x3CBDAC21#32, 0x3CC5E63A#32, 0x3CCE54AC#32, 0x3CD6F7D5#32, 0x3CDFD010#32, 0x3CE8DDBA#32,
   0x3CF2212D#32, 0x3CFB9AC3#32, 0x3D02A56A#32, 0x3D0798DD#32, 0x3D0CA7E6#32, 0x3D11D2AF#32, 0x3D171964#32, 0x3D1C7C30#32,
   0x3D21FB3C#32, 0x3D2796B2#32, 0x3D2D4EBB#32, 0x3D332381#32, 0x3D39152B#32, 0x3D3F23E4#32, 0x3D454FD2#32, 0x3D4B991D#32]

/-- Entries 64 to 127 of `GAMMA_DIR_REF` (R86). -/
def gammaDirRef1 : List Word :=
  [0x3D51FFEC#32, 0x3D588468#32, 0x3D5F26B6#32, 0x3D65E6FD#32, 0x3D6CC563#32, 0x3D73C20E#32, 0x3D7ADD24#32, 0x3D810B65#32,
   0x3D84B793#32, 0x3D88732E#32, 0x3D8C3E48#32, 0x3D9018F4#32, 0x3D940344#32, 0x3D97FD49#32, 0x3D9C0715#32, 0x3DA020BA#32,
   0x3DA44A4A#32, 0x3DA883D6#32, 0x3DACCD6F#32, 0x3DB12727#32, 0x3DB5910F#32, 0x3DBA0B38#32, 0x3DBE95B3#32, 0x3DC33090#32,
   0x3DC7DBE0#32, 0x3DCC97B4#32, 0x3DD1641D#32, 0x3DD6412B#32, 0x3DDB2EEE#32, 0x3DE02D76#32, 0x3DE53CD4#32, 0x3DEA5D18#32,
   0x3DEF8E51#32, 0x3DF4D090#32, 0x3DFA23E5#32, 0x3DFF885E#32, 0x3E027F06#32, 0x3E05427F#32, 0x3E080EA2#32, 0x3E0AE377#32,
   0x3E0DC104#32, 0x3E10A753#32, 0x3E13966A#32, 0x3E168E51#32, 0x3E198F0F#32, 0x3E1C98AC#32, 0x3E1FAB30#32, 0x3E22C6A1#32,
   0x3E25EB07#32, 0x3E29186A#32, 0x3E2C4ED0#32, 0x3E2F8E42#32, 0x3E32D6C5#32, 0x3E362862#32, 0x3E39831F#32, 0x3E3CE703#32,
   0x3E405417#32, 0x3E43CA60#32, 0x3E4749E6#32, 0x3E4AD2AF#32, 0x3E4E64C3#32, 0x3E520029#32, 0x3E55A4E7#32, 0x3E595305#32]

/-- Entries 128 to 191 of `GAMMA_DIR_REF` (R86). -/
def gammaDirRef2 : List Word :=
  [0x3E5D0A89#32, 0x3E60CB7A#32, 0x3E6495DF#32, 0x3E6869BE#32, 0x3E6C471F#32, 0x3E702E07#32, 0x3E741E7E#32, 0x3E78188B#32,
   0x3E7C1C33#32, 0x3E8014BF#32, 0x3E822039#32, 0x3E84308B#32, 0x3E8645B8#32, 0x3E885FC3#32, 0x3E8A7EB0#32, 0x3E8CA281#32,
   0x3E8ECB3B#32, 0x3E90F8DF#32, 0x3E932B72#32, 0x3E9562F6#32, 0x3E979F6F#32, 0x3E99E0E0#32, 0x3E9C274C#32, 0x3E9E72B6#32,
   0x3EA0C321#32, 0x3EA31890#32, 0x3EA57307#32, 0x3EA7D288#32, 0x3EAA3716#32, 0x3EACA0B6#32, 0x3EAF0F68#32, 0x3EB18332#32,
   0x3EB3FC15#32, 0x3EB67A14#32, 0x3EB8FD34#32, 0x3EBB8576#32, 0x3EBE12DE#32, 0x3EC0A56E#32, 0x3EC33D2A#32, 0x3EC5DA14#32,
   0x3EC87C30#32, 0x3ECB2380#32, 0x3ECDD008#32, 0x3ED081CA#32, 0x3ED338C9#32, 0x3ED5F508#32, 0x3ED8B68A#32, 0x3EDB7D52#32,
   0x3EDE4963#32, 0x3EE11ABF#32, 0x3EE3F169#32, 0x3EE6CD65#32, 0x3EE9AEB5#32, 0x3EEC955B#32, 0x3EEF815C#32, 0x3EF272B8#32,
   0x3EF56974#32, 0x3EF86593#32, 0x3EFB6716#32, 0x3EFE6E00#32, 0x3F00BD2B#32, 0x3F02460C#32, 0x3F03D1A5#32, 0x3F055FF7#32]

/-- Entries 192 to 255 of `GAMMA_DIR_REF` (R86). -/
def gammaDirRef3 : List Word :=
  [0x3F06F104#32, 0x3F0884CD#32, 0x3F0A1B54#32, 0x3F0BB499#32, 0x3F0D509F#32, 0x3F0EEF65#32, 0x3F1090EF#32, 0x3F12353D#32,
   0x3F13DC50#32, 0x3F15862A#32, 0x3F1732CC#32, 0x3F18E237#32, 0x3F1A946E#32, 0x3F1C4970#32, 0x3F1E0140#32, 0x3F1FBBDE#32,
   0x3F21794D#32, 0x3F23398C#32, 0x3F24FC9F#32, 0x3F26C285#32, 0x3F288B41#32, 0x3F2A56D2#32, 0x3F2C253C#32, 0x3F2DF67F#32,
   0x3F2FCA9C#32, 0x3F31A194#32, 0x3F337B6A#32, 0x3F35581D#32, 0x3F3737B0#32, 0x3F391A24#32, 0x3F3AFF7A#32, 0x3F3CE7B2#32,
   0x3F3ED2CF#32, 0x3F40C0D2#32, 0x3F42B1BC#32, 0x3F44A58E#32, 0x3F469C49#32, 0x3F4895EF#32, 0x3F4A9280#32, 0x3F4C91FF#32,
   0x3F4E946C#32, 0x3F5099C9#32, 0x3F52A216#32, 0x3F54AD56#32, 0x3F56BB88#32, 0x3F58CCAF#32, 0x3F5AE0CC#32, 0x3F5CF7DF#32,
   0x3F5F11EA#32, 0x3F612EEF#32, 0x3F634EEE#32, 0x3F6571E9#32, 0x3F6797E0#32, 0x3F69C0D5#32, 0x3F6BECCA#32, 0x3F6E1BBF#32,
   0x3F704DB5#32, 0x3F7282AE#32, 0x3F74BAAB#32, 0x3F76F5AE#32, 0x3F7933B6#32, 0x3F7B74C6#32, 0x3F7DB8DE#32, 0x3F800000#32]

/-- `GAMMA_DIR_REF`, 256 entries (R86). -/
def gammaDirRef : List Word := gammaDirRef0 ++ gammaDirRef1 ++ gammaDirRef2 ++ gammaDirRef3

/-- Entries 0 to 63 of `GAMMA_INV_REF` (R86). -/
def gammaInvRef0 : List Word :=
  [0x00000000#32, 0x391F22B4#32, 0x39EEB40E#32, 0x3A46EB61#32, 0x3A8B3E5D#32, 0x3AB3070A#32, 0x3ADACFB7#32, 0x3B014C32#32,
   0x3B153089#32, 0x3B2914DF#32, 0x3B3CF935#32, 0x3B50F2D0#32, 0x3B65FB9A#32, 0x3B7C3403#32, 0x3B89D05F#32, 0x3B962333#32,
   0x3BA314BD#32, 0x3BB0A730#32, 0x3BBEDCB6#32, 0x3BCDB76D#32, 0x3BDD3967#32, 0x3BED64AF#32, 0x3BFE3B45#32, 0x3C07DF91#32,
   0x3C10F91A#32, 0x3C1A6B31#32, 0x3C2436C7#32, 0x3C2E5CC7#32, 0x3C38DE19#32, 0x3C43BBA4#32, 0x3C4EF648#32, 0x3C5A8EE4#32,
   0x3C668654#32, 0x3C72DD70#32, 0x3C7F950F#32, 0x3C865702#32, 0x3C8D148E#32, 0x3C940395#32, 0x3C9B247B#32, 0x3CA277A6#32,
   0x3CA9FD77#32, 0x3CB1B652#32, 0x3CB9A298#32, 0x3CC1C2A8#32, 0x3CCA16E2#32, 0x3CD29FA4#32, 0x3CDB5D4A#32, 0x3CE45031#32,
   0x3CED78B4#32, 0x3CF6D72E#32, 0x3D0035FB#32, 0x3D051BB4#32, 0x3D0A1CEC#32, 0x3D0F39D0#32, 0x3D14728A#32, 0x3D19C745#32,
   0x3D1F382B#32, 0x3D24C567#32, 0x3D2A6F21#32, 0x3D303584#32, 0x3D3618B7#32, 0x3D3C18E3#32, 0x3D423631#32, 0x3D4870C9#32]

/-- Entries 64 to 127 of `GAMMA_INV_REF` (R86). -/
def gammaInvRef1 : List Word :=
  [0x3D4EC8D2#32, 0x3D553E72#32, 0x3D5BD1D2#32, 0x3D628318#32, 0x3D69526A#32, 0x3D703FEE#32, 0x3D774BCA#32, 0x3D7E7623#32,
   0x3D82DF90#32, 0x3D869372#32, 0x3D8A56CA#32, 0x3D8E29AB#32, 0x3D920C26#32, 0x3D95FE4E#32, 0x3D9A0035#32, 0x3D9E11EB#32,
   0x3DA23384#32, 0x3DA6650F#32, 0x3DAAA6A0#32, 0x3DAEF847#32, 0x3DB35A14#32, 0x3DB7CC1B#32, 0x3DBC4E6A#32, 0x3DC0E114#32,
   0x3DC58428#32, 0x3DCA37B9#32, 0x3DCEFBD5#32, 0x3DD3D08E#32, 0x3DD8B5F5#32, 0x3DDDAC18#32, 0x3DE2B309#32, 0x3DE7CAD8#32,
   0x3DECF395#32, 0x3DF22D4F#32, 0x3DF77817#32, 0x3DFCD3FC#32, 0x3E012087#32, 0x3E03DFAE#32, 0x3E06A77B#32, 0x3E0977F6#32,
   0x3E0C5126#32, 0x3E0F3313#32, 0x3E121DC5#32, 0x3E151143#32, 0x3E180D95#32, 0x3E1B12C1#32, 0x3E1E20D1#32, 0x3E2137CA#32,
   0x3E2457B5#32, 0x3E278099#32, 0x3E2AB27C#32, 0x3E2DED67#32, 0x3E313160#32, 0x3E347E70#32, 0x3E37D49C#32, 0x3E3B33EC#32,
   0x3E3E9C67#32, 0x3E420E14#32, 0x3E4588FB#32, 0x3E490D21#32, 0x3E4C9A8F#32, 0x3E50314B#32, 0x3E53D15D#32, 0x3E577ACA#32]

/-- Entries 128 to 191 of `GAMMA_INV_REF` (R86). -/
def gammaInvRef2 : List Word :=
  [0x3E5B2D9A#32, 0x3E5EE9D3#32, 0x3E62AF7D#32, 0x3E667E9F#32, 0x3E6A573E#32, 0x3E6E3961#32, 0x3E722510#32, 0x3E761A52#32,
   0x3E7A192B#32, 0x3E7E21A4#32, 0x3E8119E1#32, 0x3E8327C7#32, 0x3E853A86#32, 0x3E875221#32, 0x3E896E9D#32, 0x3E8B8FFC#32,
   0x3E8DB641#32, 0x3E8FE16F#32, 0x3E92118B#32, 0x3E944696#32, 0x3E968094#32, 0x3E98BF89#32, 0x3E9B0377#32, 0x3E9D4C61#32,
   0x3E9F9A4B#32, 0x3EA1ED38#32, 0x3EA4452A#32, 0x3EA6A226#32, 0x3EA9042D#32, 0x3EAB6B44#32, 0x3EADD76C#32, 0x3EB048AA#32,
   0x3EB2BF00#32, 0x3EB53A71#32, 0x3EB7BB00#32, 0x3EBA40B0#32, 0x3EBCCB85#32, 0x3EBF5B80#32, 0x3EC1F0A6#32, 0x3EC48AF9#32,
   0x3EC72A7C#32, 0x3EC9CF32#32, 0x3ECC791D#32, 0x3ECF2842#32, 0x3ED1DCA2#32, 0x3ED49640#32, 0x3ED75521#32, 0x3EDA1945#32,
   0x3EDCE2B1#32, 0x3EDFB167#32, 0x3EE2856A#32, 0x3EE55EBD#32, 0x3EE83D62#32, 0x3EEB215D#32, 0x3EEE0AB0#32, 0x3EF0F95E#32,
   0x3EF3ED6A#32, 0x3EF6E6D7#32, 0x3EF9E5A7#32, 0x3EFCE9DE#32, 0x3EFFF37D#32, 0x3F018144#32, 0x3F030B81#32, 0x3F049877#32]

/-- Entries 192 to 255 of `GAMMA_INV_REF` (R86). -/
def gammaInvRef3 : List Word :=
  [0x3F062826#32, 0x3F07BA91#32, 0x3F094FB9#32, 0x3F0AE79F#32, 0x3F0C8244#32, 0x3F0E1FAA#32, 0x3F0FBFD2#32, 0x3F1162BD#32,
   0x3F13086D#32, 0x3F14B0E4#32, 0x3F165C22#32, 0x3F180A28#32, 0x3F19BAF9#32, 0x3F1B6E95#32, 0x3F1D24FE#32, 0x3F1EDE35#32,
   0x3F209A3B#32, 0x3F225912#32, 0x3F241ABB#32, 0x3F25DF37#32, 0x3F27A688#32, 0x3F2970AF#32, 0x3F2B3DAC#32, 0x3F2D0D82#32,
   0x3F2EE032#32, 0x3F30B5BD#32, 0x3F328E23#32, 0x3F346968#32, 0x3F36478B#32, 0x3F38288E#32, 0x3F3A0C73#32, 0x3F3BF339#32,
   0x3F3DDCE4#32, 0x3F3FC974#32, 0x3F41B8EA#32, 0x3F43AB48#32, 0x3F45A08E#32, 0x3F4798BE#32, 0x3F4993DA#32, 0x3F4B91E2#32,
   0x3F4D92D8#32, 0x3F4F96BD#32, 0x3F519D91#32, 0x3F53A758#32, 0x3F55B410#32, 0x3F57C3BD#32, 0x3F59D65F#32, 0x3F5BEBF6#32,
   0x3F5E0486#32, 0x3F60200D#32, 0x3F623E8F#32, 0x3F64600C#32, 0x3F668485#32, 0x3F68ABFB#32, 0x3F6AD670#32, 0x3F6D03E4#32,
   0x3F6F345A#32, 0x3F7167D1#32, 0x3F739E4C#32, 0x3F75D7CC#32, 0x3F781451#32, 0x3F7A53DD#32, 0x3F7C9671#32, 0x3F7EDC0E#32]

/-- `GAMMA_INV_REF`, 256 entries (R86). -/
def gammaInvRef : List Word := gammaInvRef0 ++ gammaInvRef1 ++ gammaInvRef2 ++ gammaInvRef3

theorem gammaDirRef_length : gammaDirRef.toArray.size = 256 := by
  have h0 : gammaDirRef0.length = 64 := rfl
  have h1 : gammaDirRef1.length = 64 := rfl
  have h2 : gammaDirRef2.length = 64 := rfl
  have h3 : gammaDirRef3.length = 64 := rfl
  simp only [gammaDirRef, List.size_toArray, List.length_append, h0, h1, h2, h3]

theorem gammaInvRef_length : gammaInvRef.toArray.size = 256 := by
  have h0 : gammaInvRef0.length = 64 := rfl
  have h1 : gammaInvRef1.length = 64 := rfl
  have h2 : gammaInvRef2.length = 64 := rfl
  have h3 : gammaInvRef3.length = 64 := rfl
  simp only [gammaInvRef, List.size_toArray, List.length_append, h0, h1, h2, h3]

/-- The reference instantiation (R86): for tests and for claims that name it; the machine does not rest on it. -/
def gammaRef : GammaRom where
  dir := ⟨gammaDirRef.toArray, gammaDirRef_length⟩
  inv := ⟨gammaInvRef.toArray, gammaInvRef_length⟩

/-- The tables of this instance: `Config.rawGammaRom` if it meets R82 and R83, else the reference pair. So they are an
arbitrary admissible pair, and nothing beyond R82 and R83 can be proved of them (R82, R123, D21; log entry 1). -/
def gammaRom : GammaRom := if admissible Config.rawGammaRom then Config.rawGammaRom else gammaRef

end Sys2Proof.Machine
end

