-- ==== Sys2Proof/Machine/Gamma.lean ====
section
/-! DEFINITION. The table read (20_memory.md R31) and the two gamma commands (41_gamma.md). -/

namespace Sys2Proof.Machine

/-- The two read-only memories of the block (R30); they are separate index spaces (R38). -/
inductive TableSpace where
  | gdir | ginv
  deriving DecidableEq, Repr

/-- `MemRead(space, index)`: the whole 32-bit entry; every 8-bit index is valid, nothing changes (R31, R37). -/
def memRead (g : GammaRom) (space : TableSpace) (index : Fin 256) : Word :=
  match space with
  | .gdir => g.dir[index]
  | .ginv => g.inv[index]

/-- The forward sampling: `MemRead(GDIR, code)` (R84, D23). -/
def s2lValue (g : GammaRom) (code : Nat) : Word := memRead g .gdir (Fin.ofNat 256 code)

/-- `v` exceeds threshold `i` (R85). -/
def exceeds (g : GammaRom) (v : Word) (i : Nat) : Bool := fgt v (memRead g .ginv (Fin.ofNat 256 i))

/-- The inverse sampling: how many of the thresholds 1..255 the value exceeds (R85, D22). -/
def l2sCode (g : GammaRom) (v : Word) : Nat := (List.range' 1 255).countP (exceeds g v)

/-- The eight-step binary search of R85, which reads eight thresholds; R85 says it gives the same code. The machine
counts; the search is here to be compared with it. -/
def l2sSearch (g : GammaRom) (v : Word) : Nat :=
  [128, 64, 32, 16, 8, 4, 2, 1].foldl (fun n k => if exceeds g v (n + k) then n + k else n) 0

/-- `S2L rd, ra`: `x[rd] <- GAMMA_DIR[ch(ra)]`, the stored pattern unchanged (R84). -/
def execS2l (rd ra : RegNum) (s : State) : Host.Outcome State Fault Refusal :=
  .next (s.writeReg rd (s2lValue gammaRom (s.ch ra)))

/-- `L2S rd, ra`: `x[rd] <- zext32(n)`, `n` the number of thresholds that `x[ra]` exceeds (R85). -/
def execL2s (rd ra : RegNum) (s : State) : Host.Outcome State Fault Refusal :=
  .next (s.writeReg rd (zext32 (l2sCode gammaRom (s.readReg ra))))

end Sys2Proof.Machine
end

