-- ==== Sys2Proof/Machine/Move.lean ====
section
/-! DEFINITION. The data movement commands (43_move_out.md): they move bits and use no view of a register (R11). -/

namespace Sys2Proof.Machine

/-- `LDI rd, imm16`: `x[rd] <- zext32(imm16)` (R95). -/
def execLdi (rd : RegNum) (imm : Imm16) (s : State) : Host.Outcome State Fault Refusal :=
  .next (s.writeReg rd (zext32 imm.toNat))

/-- `LDIH rd, imm16`: `x[rd] <- imm16 * 2^16 + x[rd][15:0]` (R96). -/
def execLdih (rd : RegNum) (imm : Imm16) (s : State) : Host.Outcome State Fault Refusal :=
  .next (s.writeReg rd (imm ++ (s.readReg rd).extractLsb' 0 16))

/-- `OUT ra`: `OUT <- OUT ++ [x[ra]]`, all 32 bits; no register changes (R97). -/
def execOut (ra : RegNum) (s : State) : Host.Outcome State Fault Refusal :=
  .next (s.appendOut (s.readReg ra))

end Sys2Proof.Machine
end

