-- ==== Sys2Proof/Machine/Quantize.lean ====
section
/-! DEFINITION. The float-to-8-bit quantizer (42_quantize.md). -/

namespace Sys2Proof.Machine

/-- `Quantize(w)` (R90), its five lines in order. In units of 2^-149 the value 1 is 2^149, and
`floor(fval * 255 + 1/2)` is `(magnitude * 510 + 2^149) div 2^150`, exactly: no rounding takes place (D19). -/
def quantize (w : Word) : Nat :=
  if isNaN w then 0
  else if fSign w then 0
  else if isInf w then 255
  else if fMag w ≥ 2 ^ 149 then 255
  else (fMag w * 510 + 2 ^ 149) / 2 ^ 150

/-- `QNT rd, ra`: `x[rd] <- zext32(Quantize(x[ra]))` (R91). -/
def execQnt (rd ra : RegNum) (s : State) : Host.Outcome State Fault Refusal :=
  .next (s.writeReg rd (zext32 (quantize (s.readReg ra))))

end Sys2Proof.Machine
end

