-- ==== Sys2Proof/Machine/Dispatch.lean ====
section
/-! DEFINITION. The meaning of each command, one arm per constructor of `Instr`. -/

namespace Sys2Proof.Machine

def exec (i : Instr) (s : State) : Host.Outcome State Fault Refusal :=
  match i with
  | .mul rd ra rb => Sys2Proof.Machine.execMul rd ra rb s
  | .divmul rd ra rb => Sys2Proof.Machine.execDivmul rd ra rb s
  | .lerp rd ra rb rc => Sys2Proof.Machine.execLerp rd ra rb rc s
  | .prelerp rd ra rb rc => Sys2Proof.Machine.execPrelerp rd ra rb rc s
  | .lerp4 rd ra rb rc => Sys2Proof.Machine.execLerp4 rd ra rb rc s
  | .s2l rd ra => Sys2Proof.Machine.execS2l rd ra s
  | .l2s rd ra => Sys2Proof.Machine.execL2s rd ra s
  | .qnt rd ra => Sys2Proof.Machine.execQnt rd ra s
  | .ldi rd imm => Sys2Proof.Machine.execLdi rd imm s
  | .ldih rd imm => Sys2Proof.Machine.execLdih rd imm s
  | .out ra => Sys2Proof.Machine.execOut ra s

end Sys2Proof.Machine
end

