-- ==== Sys2Proof/Machine/Deliver.lean ====
section
/-! DEFINITION. The step for a delivered word, and for each other event of the host (60_exceptions.md, the step function
after R104; 70_reset_and_hazards.md section 3). -/

namespace Sys2Proof.Machine

/-- The complete step for a delivered word (R104, R49, R103): first the `FAULT` gate, which discards the word unexamined,
then decoding, then the command or the exception (R106). -/
def deliver (w : Word) (s : State) : Host.Outcome State Fault Refusal :=
  if s.fault then .next s
  else
    match decode w with
    | .error _ => .next (s.raiseIllegal w)
    | .ok i => exec i s

/-- One event of the host acting on the state (R121, R125). A word offered at the same moment as reset is not delivered
(R106). -/
def act (e : HostEvent) (s : State) : Host.Outcome State Fault Refusal :=
  match e with
  | .deliver w => deliver w s
  | .reset _ => .next s.hostReset
  | .takeOut => .next s.takeOutput

/-- One step of the model: the next event of the host acts; with no event the block is idle and its state does not change
(R115). -/
def hostStep (s : State) : Host.Outcome State Fault Refusal :=
  match s.nextEvent with
  | none => .next s
  | some (e, s') => act e s'

/-- The command words of a program delivered one after another, in order (R129). -/
def deliverAll : List Word → State → Host.Outcome State Fault Refusal
  | [], s => .next s
  | w :: ws, s =>
    match deliver w s with
    | .next s' => deliverAll ws s'
    | .fault r => .fault r
    | .refused r => .refused r

end Sys2Proof.Machine
end

