-- ==== Sys2Proof/Machine/Step.lean ====
section
/-! DEFINITION. One step of the machine, and where the host's next word is placed. -/

namespace Sys2Proof.Machine

/-- One step: the next event of the host (R7, R40). The step of a delivered word is `deliver`. -/
def step (s : State) : Host.Outcome State Fault Refusal := hostStep s

/-- `s` with the command word `w` (its bits at or above `nbits` zero) as the very next thing the host delivers. The block
fetches nothing (R14): a program is delivered from outside, and this stands for that delivery (log entry 2). -/
def State.withFetchWord (s : State) (nbits w : Nat) : State :=
  s.offer (.deliver (BitVec.ofNat 32 (w % 2 ^ nbits)))

end Sys2Proof.Machine
end

