-- ==== Sys2Proof/WellFormed.lean ====
section
/-! DEFINITION. Well-formedness. A term of `Instr` is well-formed by its type: every register number is below 8 and the
immediate has 16 bits (R10, R48). What can be ill-formed is what a programmer writes: an assembler line, whose operands are
plain numbers that must fit their fields (R54). Which 32-bit WORDS are commands is decided by the decoder (R49). -/

namespace Sys2Proof

/-- One line of the assembler with its operands as plain numbers (R54): the eleven commands, the five pseudo-instructions
(R55) and `.word`. -/
inductive AsmLine where
  | mul (rd ra rb : Nat)
  | divmul (rd ra rb : Nat)
  | lerp (rd ra rb rc : Nat)
  | prelerp (rd ra rb rc : Nat)
  | lerp4 (rd ra rb rc : Nat)
  | s2l (rd ra : Nat)
  | l2s (rd ra : Nat)
  | qnt (rd ra : Nat)
  | ldi (rd imm16 : Nat)
  | ldih (rd imm16 : Nat)
  | out (ra : Nat)
  /-- `MULTCOVER rd, ra, rb`, another name of `MUL` (R55, R70). -/
  | multcover (rd ra rb : Nat)
  /-- `SCALECOVER rd, ra, rb`, another name of `MUL` (R55, R70). -/
  | scalecover (rd ra rb : Nat)
  /-- `GRADIENT rd, rt, rk`: the colour in `rd` toward the one in `rt` by the weight in `rk` (R55, R70). -/
  | gradient (rd rt rk : Nat)
  /-- `LI rd, imm32`: any 32-bit constant in two commands (R55). -/
  | li (rd imm32 : Nat)
  /-- `MOV rd, ra`: copy of all 32 bits (R55). -/
  | mov (rd ra : Nat)
  /-- `.word w`: a raw word, legal or not (R54). -/
  | word (w : Nat)
  deriving DecidableEq, Repr

/-- A register name `r0` .. `r7` (R10, R54). -/
def isRegName (n : Nat) : Bool := n < 8

/-- An immediate must fit its field, 0..65535 (R54). -/
def fitsImm16 (n : Nat) : Bool := n < 65536

/-- A 32-bit constant of `LI` or `.word` (R54, R55). -/
def fitsWord (n : Nat) : Bool := n < 4294967296

/-- The line's operands fit their fields (R54). -/
def AsmLine.wellFormed : AsmLine → Bool
  | .mul rd ra rb => isRegName rd && isRegName ra && isRegName rb
  | .divmul rd ra rb => isRegName rd && isRegName ra && isRegName rb
  | .lerp rd ra rb rc => isRegName rd && isRegName ra && isRegName rb && isRegName rc
  | .prelerp rd ra rb rc => isRegName rd && isRegName ra && isRegName rb && isRegName rc
  | .lerp4 rd ra rb rc => isRegName rd && isRegName ra && isRegName rb && isRegName rc
  | .s2l rd ra => isRegName rd && isRegName ra
  | .l2s rd ra => isRegName rd && isRegName ra
  | .qnt rd ra => isRegName rd && isRegName ra
  | .ldi rd imm => isRegName rd && fitsImm16 imm
  | .ldih rd imm => isRegName rd && fitsImm16 imm
  | .out ra => isRegName ra
  | .multcover rd ra rb => isRegName rd && isRegName ra && isRegName rb
  | .scalecover rd ra rb => isRegName rd && isRegName ra && isRegName rb
  | .gradient rd rt rk => isRegName rd && isRegName rt && isRegName rk
  | .li rd imm => isRegName rd && fitsWord imm
  | .mov rd ra => isRegName rd && isRegName ra
  | .word w => fitsWord w

end Sys2Proof
end

