-- ==== Sys2Proof/Machine/Assembler.lean ====
section
/-! DEFINITION. The assembler of R54 and the pseudo-instructions of R55. No part of the block: it turns the text in which
the spec writes programs into the words a host delivers. What R54 leaves open of the text (spaces, the case of a hexadecimal
digit, leading zeros of an immediate, lines without a command) is settled as log entry 8 says. -/

namespace Sys2Proof.Machine

/-! ## A line with its operands as numbers, to command words -/

/-- The register a number below 8 names (R10). -/
def regNum (n : Nat) : RegNum := Fin.ofNat 8 n

/-- The words of a line whose operands fit (R54), each pseudo-instruction expanded as R55 prints it. -/
def expandLine : AsmLine → List Word
  | .mul rd ra rb => [encode (.mul (regNum rd) (regNum ra) (regNum rb))]
  | .divmul rd ra rb => [encode (.divmul (regNum rd) (regNum ra) (regNum rb))]
  | .lerp rd ra rb rc => [encode (.lerp (regNum rd) (regNum ra) (regNum rb) (regNum rc))]
  | .prelerp rd ra rb rc => [encode (.prelerp (regNum rd) (regNum ra) (regNum rb) (regNum rc))]
  | .lerp4 rd ra rb rc => [encode (.lerp4 (regNum rd) (regNum ra) (regNum rb) (regNum rc))]
  | .s2l rd ra => [encode (.s2l (regNum rd) (regNum ra))]
  | .l2s rd ra => [encode (.l2s (regNum rd) (regNum ra))]
  | .qnt rd ra => [encode (.qnt (regNum rd) (regNum ra))]
  | .ldi rd imm => [encode (.ldi (regNum rd) (BitVec.ofNat 16 imm))]
  | .ldih rd imm => [encode (.ldih (regNum rd) (BitVec.ofNat 16 imm))]
  | .out ra => [encode (.out (regNum ra))]
  | .multcover rd ra rb => [encode (.mul (regNum rd) (regNum ra) (regNum rb))]
  | .scalecover rd ra rb => [encode (.mul (regNum rd) (regNum ra) (regNum rb))]
  | .gradient rd rt rk => [encode (.lerp4 (regNum rd) (regNum rd) (regNum rt) (regNum rk))]
  | .li rd imm =>
    [encode (.ldi (regNum rd) (BitVec.ofNat 16 (imm % 65536))),
      encode (.ldih (regNum rd) (BitVec.ofNat 16 (imm / 65536)))]
  | .mov rd ra => [encode (.lerp4 (regNum rd) (regNum ra) (regNum ra) (regNum ra))]
  | .word w => [BitVec.ofNat 32 w]

/-- The words of a line, none if an operand does not fit its field (R54). -/
def assemble (l : AsmLine) : Option (List Word) := if l.wellFormed then some (expandLine l) else none

/-! ## The text of a line (R54) -/

/-- A `;` starts a comment that runs to the end of the line (R54). -/
def stripComment (cs : List Char) : List Char := cs.takeWhile (· != ';')

/-- The text without the spaces at its two ends. DESIGN CHOICE: spaces stand freely there; a tab is no space (log entry 8). -/
def trimSpaces (cs : List Char) : List Char :=
  ((cs.dropWhile (· == ' ')).reverse.dropWhile (· == ' ')).reverse

/-- The operands, separated by commas (R54). -/
def splitCommas : List Char → List (List Char)
  | [] => [[]]
  | c :: cs =>
    match splitCommas cs with
    | [] => [[c]]
    | f :: fs => if c == ',' then [] :: f :: fs else (c :: f) :: fs

/-- The ten decimal digits, each standing at its value (R54). -/
def decimalDigits : List Char := "0123456789".toList

/-- The six further hexadecimal digits in upper case, as the programs of 95_test_vectors.md write them. -/
def upperHexDigits : List Char := "ABCDEF".toList

/-- The same in lower case: DESIGN CHOICE, R54 does not say whether they are digits (log entry 8). -/
def lowerHexDigits : List Char := "abcdef".toList

/-- The value of a decimal digit: its place among the ten. -/
def decDigit (c : Char) : Option Nat := decimalDigits.idxOf? c

/-- The value of a hexadecimal digit: its place among the sixteen, the last six in either case (log entry 8). -/
def hexDigit (c : Char) : Option Nat :=
  ((decimalDigits ++ upperHexDigits).idxOf? c).or ((decimalDigits ++ lowerHexDigits).idxOf? c)

/-- The number that digits in a base stand for, most significant first; none if one of them is no digit. -/
def readDigits (value : Char → Option Nat) (base : Nat) (digits : List Char) : Option Nat :=
  digits.foldlM (fun higher c => (value c).map (higher * base + ·)) 0

/-- An immediate: a decimal number, or `0x` and hexadecimal digits (R54). DESIGN CHOICE: leading zeros are allowed in both
forms (log entry 8). -/
def parseNumber : List Char → Option Nat
  | [] => none
  | '0' :: 'x' :: d :: ds => readDigits hexDigit 16 (d :: ds)
  | d :: ds => readDigits decDigit 10 (d :: ds)

/-- The operand of `.word`: `0x` and exactly eight hexadecimal digits, the one form R54 prints (DEDUCED, log entry 8). -/
def parseWord : List Char → Option Nat
  | '0' :: 'x' :: ds => if ds.length = 8 then readDigits hexDigit 16 ds else none
  | _ => none

/-- A register name: `r` and one digit, so that `r07` is no name; there are no other names or aliases (R10, R54). `r8` and
`r9` are left to `AsmLine.wellFormed`, which refuses them. -/
def parseReg : List Char → Option Nat
  | ['r', d] => decDigit d
  | _ => none

/-- Two register operands. -/
def parseRegs2 (f : Nat → Nat → AsmLine) (a b : List Char) : Option AsmLine := do
  return f (← parseReg a) (← parseReg b)

/-- Three register operands. -/
def parseRegs3 (f : Nat → Nat → Nat → AsmLine) (a b c : List Char) : Option AsmLine := do
  return f (← parseReg a) (← parseReg b) (← parseReg c)

/-- Four register operands. -/
def parseRegs4 (f : Nat → Nat → Nat → Nat → AsmLine) (a b c d : List Char) : Option AsmLine := do
  return f (← parseReg a) (← parseReg b) (← parseReg c) (← parseReg d)

/-- A register and a number. -/
def parseRegNumber (f : Nat → Nat → AsmLine) (a b : List Char) : Option AsmLine := do
  return f (← parseReg a) (← parseNumber b)

/-- The line of a mnemonic in upper case and its operands, destination first (R54, R55). -/
def parseOperands (mnemonic : String) (operands : List (List Char)) : Option AsmLine :=
  match operands with
  | [a] =>
    if mnemonic = "OUT" then (parseReg a).map .out
    else if mnemonic = ".word" then (parseWord a).map .word
    else none
  | [a, b] =>
    if mnemonic = "S2L" then parseRegs2 .s2l a b
    else if mnemonic = "L2S" then parseRegs2 .l2s a b
    else if mnemonic = "QNT" then parseRegs2 .qnt a b
    else if mnemonic = "MOV" then parseRegs2 .mov a b
    else if mnemonic = "LDI" then parseRegNumber .ldi a b
    else if mnemonic = "LDIH" then parseRegNumber .ldih a b
    else if mnemonic = "LI" then parseRegNumber .li a b
    else none
  | [a, b, c] =>
    if mnemonic = "MUL" then parseRegs3 .mul a b c
    else if mnemonic = "DIVMUL" then parseRegs3 .divmul a b c
    else if mnemonic = "MULTCOVER" then parseRegs3 .multcover a b c
    else if mnemonic = "SCALECOVER" then parseRegs3 .scalecover a b c
    else if mnemonic = "GRADIENT" then parseRegs3 .gradient a b c
    else none
  | [a, b, c, d] =>
    if mnemonic = "LERP" then parseRegs4 .lerp a b c d
    else if mnemonic = "PRELERP" then parseRegs4 .prelerp a b c d
    else if mnemonic = "LERP4" then parseRegs4 .lerp4 a b c d
    else none
  | _ => none

/-- The line a text stands for; none if it is not a line of the assembler. -/
def parseLine (cs : List Char) : Option AsmLine :=
  let body := trimSpaces (stripComment cs)
  parseOperands (String.ofList (body.takeWhile (· != ' ')))
    ((splitCommas (body.dropWhile (· != ' '))).map trimSpaces)

/-- The words of a source text, one command per line (R54). DESIGN CHOICE: a line that holds only a comment or
nothing gives no word (log entry 8). -/
def assembleSource : List (List Char) → Option (List Word)
  | [] => some []
  | cs :: lines => do
    let here ← if trimSpaces (stripComment cs) = [] then some [] else (parseLine cs).bind assemble
    let rest ← assembleSource lines
    return here ++ rest

end Sys2Proof.Machine
end

