-- ==== Sys2Proof/Safety.lean ====
section
/-! DEFINITION. The words in which claims about the CAU are stated: what a good state and a good run are, what the states
that every step leads to have in common, what a command leaves unchanged. -/

namespace Sys2Proof.Machine

/-- A state is good while no `IllegalCommand` has been taken since reset (R105, R129). -/
def State.good (s : State) : Prop := s.fault = false

/-- The run of a program: the reset state, then one step per word, in order (R129). -/
def runProgram (ws : List Word) : Host.Outcome State Fault Refusal := deliverAll ws State.reset

/-- The two states agree in the spec's four pieces of state, whatever the host is about to do (10_state.md section 1). -/
def State.sameBlock (s t : State) : Prop :=
  t.x = s.x ∧ t.out = s.out ∧ t.fault = s.fault ∧ t.fword = s.fword

/-- The ports' bookkeeping is as before: what is pending, taken and received (log entries 2 and 3). -/
def State.samePorts (s t : State) : Prop :=
  t.pending = s.pending ∧ t.taken = s.taken ∧ t.received = s.received

/-- FRAME of a command with a destination register: every other register, the output stream, the fault latch and the ports
are as before (R12, R15, R60). There is no other state and no memory. -/
def State.sameButReg (s t : State) (rd : RegNum) : Prop :=
  (∀ k : RegNum, k ≠ rd → t.readReg k = s.readReg k) ∧ t.out = s.out ∧ t.fault = s.fault ∧ t.fword = s.fword ∧
    s.samePorts t

/-- The destination register of a command, none for `OUT` (R46, R47, R97). -/
def destOf : Instr → Option RegNum
  | .mul rd _ _ => some rd
  | .divmul rd _ _ => some rd
  | .lerp rd _ _ _ => some rd
  | .prelerp rd _ _ _ => some rd
  | .lerp4 rd _ _ _ => some rd
  | .s2l rd _ => some rd
  | .l2s rd _ => some rd
  | .qnt rd _ => some rd
  | .ldi rd _ => some rd
  | .ldih rd _ => some rd
  | .out _ => none

/-- While `FAULT = 0`, `FWORD` holds its reset value (R17). -/
def State.latchInv (s : State) : Prop := s.fault = false → s.fword = 0#32

/-- What the host has received ends with exactly the words of `OUT` that have left the port, each once and in order, and
no more words have left than were sent (R21, R125). -/
def State.portInv (s : State) : Prop :=
  s.taken ≤ s.out.length ∧ ∃ earlier : List Word, s.received = earlier ++ s.out.take s.taken

/-- The invariant of the machine: the fault latch and the output port are consistent. -/
def State.inv (s : State) : Prop := s.latchInv ∧ s.portInv

/-- The next event of the host is a reset (R120). -/
def State.resetNext (s : State) : Prop := ∃ o rest, s.pending = .reset o :: rest

end Sys2Proof.Machine
end

