-- ==== Sys2Proof/Certificates/Slice0/Obligations.lean ====
section
/-! DEFINITION. The statements for the provers. In each, `ch`, `readReg`, `zext32`, `lane` are the notation of R6; the frame
`sameButReg` says that every other register, the output stream, the fault latch and the ports are unchanged. The block has
no memory that could change and no program counter, so no frame mentions them. -/

open Sys2Proof Sys2Proof.Machine

/-! ## Reset and the state -/

/-- R23. The launch state, and what `rst` leaves of any state: every piece of the block's state at its reset value. -/
def Obligations.ResetValues : Prop :=
  ∀ s : State, ∀ t ∈ [State.reset, s.hostReset],
    (∀ k : RegNum, t.readReg k = 0x00000000#32) ∧ t.out = [] ∧ t.fault = false ∧ t.fword = 0x00000000#32

/-- R106, R120, R121. A reset event puts the block into the reset state from any state, whatever word is offered at the same
moment: that word is not executed. Words already taken stay taken, what the host does next is not touched (log entries 3
and 5: the fields `pending`, `taken`, `received` are the model's). -/
def Obligations.ResetEventWins : Prop :=
  ∀ (s : State) (offered : Option Word) (rest : List HostEvent), s.pending = .reset offered :: rest →
    ∃ t, step s = .next t ∧ State.reset.sameBlock t ∧ t.pending = rest ∧ t.taken = 0 ∧ t.received = s.received

/-- R17, R21. The invariant holds right after reset. -/
def Obligations.InvariantAtReset : Prop := State.reset.inv

/-- R17, R21, R125. Every step keeps the invariant: while `FAULT = 0`, `FWORD` holds its reset value; what the host has
received ends with exactly the words of `OUT` that have left the port, each once and in order. -/
def Obligations.StepKeepsInvariant : Prop :=
  ∀ s t : State, s.inv → step s = .next t → t.inv

/-- R17. `FWORD` is written once, when `FAULT` goes from 0 to 1, with the whole offending word; then it keeps that value
until reset; while `FAULT` stays 0 it keeps its reset value; no command writes it or reads it. -/
def Obligations.FwordIsWrittenOnce : Prop :=
  State.reset.fword = 0x00000000#32 ∧
  (∀ s t : State, step s = .next t →
    (s.fault = false → t.fault = true →
      ∃ w rest e, s.pending = .deliver w :: rest ∧ decode w = .error e ∧ t.fword = w) ∧
    (s.fault = true → ¬ s.resetNext → t.fault = true ∧ t.fword = s.fword) ∧
    (s.resetNext → t.fault = false ∧ t.fword = 0x00000000#32) ∧
    (s.latchInv → t.latchInv)) ∧
  (∀ (i : Instr) (s t : State) (v : Word), exec i s = .next t →
    t.fword = s.fword ∧ exec i { s with fword := v } = .next { t with fword := v })

/-- R16. `FAULT` is set only by exception entry and cleared only by reset; no command writes it; it gates every step. -/
def Obligations.FaultIsSticky : Prop :=
  State.reset.fault = false ∧
  (∀ s t : State, step s = .next t →
    (s.fault = false → (t.fault = true ↔ ∃ w rest e, s.pending = .deliver w :: rest ∧ decode w = .error e)) ∧
    (s.fault = true → (t.fault = false ↔ s.resetNext))) ∧
  (∀ (i : Instr) (s t : State), exec i s = .next t → t.fault = s.fault) ∧
  (∀ (s : State) (w : Word), s.fault = true → deliver w s = .next s)

/-- R18. The output stream only grows, by the one word `x[ra]` of an executed `OUT`; reset empties it; no command reads
it. -/
def Obligations.OutIsAppendOnly : Prop :=
  (∀ s t : State, step s = .next t → ¬ s.resetNext →
    t.out = s.out ∨
    ∃ w rest ra, s.pending = .deliver w :: rest ∧ s.fault = false ∧ decode w = .ok (.out ra) ∧
      t.out = s.out ++ [s.readReg ra]) ∧
  (∀ s t : State, step s = .next t → s.resetNext → t.out = []) ∧
  (∀ (i : Instr) (s t : State) (o : List Word), exec i s = .next t →
    ∃ sent, t.out = s.out ++ sent ∧ exec i { s with out := o } = .next { t with out := o ++ sent })

/-- R13, R40. A register that no delivered command has as its destination keeps its value over any number of words; so a
register never written since reset reads 0. -/
def Obligations.UnwrittenRegisterKeepsItsValue : Prop :=
  ∀ (ws : List Word) (r : RegNum) (s : State),
    (∀ w ∈ ws, ∀ i, decode w = .ok i → destOf i ≠ some r) →
      ∃ t, deliverAll ws s = .next t ∧ t.readReg r = s.readReg r

/-- R12, R15, R60. Every command answers a next state in which only its destination register, or for `OUT` only the output
stream, may differ. -/
def Obligations.OnlyTheDestinationChanges : Prop :=
  ∀ (i : Instr) (s : State), ∃ t, exec i s = .next t ∧
    (∀ k : RegNum, destOf i ≠ some k → t.readReg k = s.readReg k) ∧
    (destOf i ≠ none → t.out = s.out) ∧ t.fault = s.fault ∧ t.fword = s.fword ∧ s.samePorts t

/-- R22, R127. What a delivered word does to the block's state is a function of the word and of the four pieces of state:
two states that agree in them agree in them after the step, whatever the ports hold. -/
def Obligations.NoHiddenState : Prop :=
  ∀ (w : Word) (s s' : State), s.sameBlock s' →
    ∃ t t', deliver w s = .next t ∧ deliver w s' = .next t' ∧ t.sameBlock t'

/-! ## Decoding -/

/-- 30_encoding.md section 7: worked encodings and illegal words. -/
def Obligations.WorkedEncodingsDecode : Prop :=
  decode 0x10688000#32 = .ok (.mul 3 2 1) ∧ decode 0x11408000#32 = .ok (.divmul 2 0 1) ∧
  decode 0x1260A000#32 = .ok (.lerp 3 0 1 2) ∧ decode 0x13F72000#32 = .ok (.prelerp 7 5 6 2) ∧
  decode 0x1860A000#32 = .ok (.lerp4 3 0 1 2) ∧ decode 0x20640000#32 = .ok (.s2l 3 1) ∧
  decode 0x21400000#32 = .ok (.l2s 2 0) ∧ decode 0x28200000#32 = .ok (.qnt 1 0) ∧
  decode 0x30000064#32 = .ok (.ldi 0 100#16) ∧ decode 0x31003F00#32 = .ok (.ldih 0 0x3F00#16) ∧
  decode 0x38080000#32 = .ok (.out 2) ∧
  decode 0x10001000#32 = .error (.nonzeroMustBeZero .mul) ∧ decode 0x38200000#32 = .error (.nonzeroMustBeZero .out) ∧
  decode 0x00000000#32 = .error (.unassignedOpcode 0x00#8)

/-- R45 to R50. Decoding the word of an instruction gives that instruction, with every operand at every value. -/
def Obligations.DecodeInvertsEncode : Prop := ∀ i : Instr, decode (encode i) = .ok i

/-- R49, R51, R52. A legal word is the word of the one instruction it decodes to: no bit of a legal word is dropped and two
words never mean the same instruction. -/
def Obligations.EncodeInvertsDecode : Prop := ∀ (w : Word) (i : Instr), decode w = .ok i → encode i = w

/-- R50. Each row's match and mask, with the operands taken from the fields of the word (R48). -/
def Obligations.RowsOfTheOpcodeMap : Prop :=
  ∀ w : Word,
    (w &&& 0xFF007FFF#32 = 0x10000000#32 → decode w = .ok (.mul (rdOf w) (raOf w) (rbOf w))) ∧
    (w &&& 0xFF007FFF#32 = 0x11000000#32 → decode w = .ok (.divmul (rdOf w) (raOf w) (rbOf w))) ∧
    (w &&& 0xFF000FFF#32 = 0x12000000#32 → decode w = .ok (.lerp (rdOf w) (raOf w) (rbOf w) (rcOf w))) ∧
    (w &&& 0xFF000FFF#32 = 0x13000000#32 → decode w = .ok (.prelerp (rdOf w) (raOf w) (rbOf w) (rcOf w))) ∧
    (w &&& 0xFF000FFF#32 = 0x18000000#32 → decode w = .ok (.lerp4 (rdOf w) (raOf w) (rbOf w) (rcOf w))) ∧
    (w &&& 0xFF03FFFF#32 = 0x20000000#32 → decode w = .ok (.s2l (rdOf w) (raOf w))) ∧
    (w &&& 0xFF03FFFF#32 = 0x21000000#32 → decode w = .ok (.l2s (rdOf w) (raOf w))) ∧
    (w &&& 0xFF03FFFF#32 = 0x28000000#32 → decode w = .ok (.qnt (rdOf w) (raOf w))) ∧
    (w &&& 0xFF1F0000#32 = 0x30000000#32 → decode w = .ok (.ldi (rdOf w) (imm16Of w))) ∧
    (w &&& 0xFF1F0000#32 = 0x31000000#32 → decode w = .ok (.ldih (rdOf w) (imm16Of w))) ∧
    (w &&& 0xFFE3FFFF#32 = 0x38000000#32 → decode w = .ok (.out (raOf w)))

/-! ## The step, the exception, the ports -/

/-- R104 (the step function), R49. When the next word delivered decodes to an instruction and `FAULT = 0`, the step is that
instruction's meaning on the state in which the word has been consumed. -/
def Obligations.StepRunsTheDecodedInstruction : Prop :=
  ∀ (s : State) (w : Word) (rest : List HostEvent) (i : Instr),
    s.pending = .deliver w :: rest → s.fault = false → decode w = .ok i →
      step s = exec i { s with pending := rest }

/-- R102. While `FAULT = 0`, a delivered word raises `IllegalCommand` exactly when its operation code is not one of the
eleven, or a bit its command requires to be zero is 1; nothing else raises it. -/
def Obligations.IllegalCommandExactly : Prop :=
  ∀ (s : State) (w : Word) (rest : List HostEvent), s.pending = .deliver w :: rest → s.fault = false →
    ∃ t, step s = .next t ∧
      (t.fault = true ↔
        opOf w ∉ [0x10#8, 0x11#8, 0x12#8, 0x13#8, 0x18#8, 0x20#8, 0x21#8, 0x28#8, 0x30#8, 0x31#8, 0x38#8] ∨
        (opOf w ∈ [0x10#8, 0x11#8] ∧ w &&& 0x00007FFF#32 ≠ 0#32) ∨
        (opOf w ∈ [0x12#8, 0x13#8, 0x18#8] ∧ w &&& 0x00000FFF#32 ≠ 0#32) ∨
        (opOf w ∈ [0x20#8, 0x21#8, 0x28#8] ∧ w &&& 0x0003FFFF#32 ≠ 0#32) ∨
        (opOf w ∈ [0x30#8, 0x31#8] ∧ w &&& 0x001F0000#32 ≠ 0#32) ∨
        (opOf w = 0x38#8 ∧ w &&& 0x00E3FFFF#32 ≠ 0#32))

/-- R103. Taking `IllegalCommand(w)` sets `FWORD` to the word and `FAULT` to 1 in one step, changes nothing else and shows
both on the ports. It is precise: every word delivered before has been executed completely, and no word delivered after is
executed at all. -/
def Obligations.ExceptionEntry : Prop :=
  (∀ (s : State) (w : Word) (rest : List HostEvent) (e : IllegalReason),
    s.pending = .deliver w :: rest → s.fault = false → decode w = .error e →
      ∃ t, step s = .next t ∧ t.fword = w ∧ t.fault = true ∧ t.x = s.x ∧ t.out = s.out ∧
        t.pending = rest ∧ t.taken = s.taken ∧ t.received = s.received ∧
        t.faultPort = 1#1 ∧ t.faultWordPort = w) ∧
  (∀ (earlier later : List Word) (w : Word) (e : IllegalReason) (s u : State),
    deliverAll earlier s = .next u → u.fault = false → decode w = .error e →
      deliverAll (earlier ++ w :: later) s = .next { u with fword := w, fault := true })

/-- R104. While `FAULT = 1` every delivered word, legal or not, is accepted and discarded: it is consumed and the state does
not change, over any number of words. -/
def Obligations.FaultedBlockDiscards : Prop :=
  ∀ s : State, s.fault = true →
    (∀ (w : Word) (rest : List HostEvent), s.pending = .deliver w :: rest →
      step s = .next { s with pending := rest }) ∧
    (∀ ws : List Word, deliverAll ws s = .next s)

/-- R100. No legal command raises an exception, for any value of any operand. -/
def Obligations.LegalCommandsNeverFault : Prop :=
  ∀ (i : Instr) (s : State), ∃ t, exec i s = .next t ∧ t.fault = s.fault ∧ t.fword = s.fword

/-- R129. Every step finishes with a next state: there is no hang, no stop and no refusal. -/
def Obligations.EveryStepFinishes : Prop := ∀ s : State, ∃ t, step s = .next t

/-- R115. With no event of the host the block is idle and its state does not change. -/
def Obligations.IdleStepChangesNothing : Prop := ∀ s : State, s.pending = [] → step s = .next s

/-- R21, R125. A word leaves the output port when one is waiting, the oldest not taken yet, each once; the block's own state
does not change; when none is waiting nothing is transferred (log entry 3). -/
def Obligations.OutputPortPresentsEachWordOnce : Prop :=
  ∀ (s : State) (rest : List HostEvent), s.pending = .takeOut :: rest →
    ∃ t, step s = .next t ∧ s.sameBlock t ∧ t.pending = rest ∧
      (∀ w, s.out[s.taken]? = some w → t.taken = s.taken + 1 ∧ t.received = s.received ++ [w]) ∧
      (s.out.length ≤ s.taken → t.taken = s.taken ∧ t.received = s.received)

/-- R14, R40, R129. The machine, run for as many steps as words are pending, does what delivering the words one after
another does: the words in front of what the host does later are executed in order, and nothing else happens. -/
def Obligations.RunDeliversTheWordsInOrder : Prop :=
  ∀ (ws : List Word) (later : List HostEvent) (s : State),
    ∃ t, deliverAll ws { s with pending := later } = .next t ∧
      core.run ws.length { s with pending := ws.map .deliver ++ later } = .next t ∧ t.pending = later

/-! ## The blend commands -/

/-- R62. `MUL`: the word, the result (the integer nearest to `a*b/255`), the corner cases, the frame. -/
def Obligations.MulCommand : Prop :=
  ∀ (rd ra rb : RegNum) (s : State),
    (∀ w : Word, decode w = .ok (.mul rd ra rb) ↔ w = formatR 0x10#8 rd ra rb 0 0#12) ∧
    ∃ t, exec (.mul rd ra rb) s = .next t ∧ s.sameButReg t rd ∧
      t.readReg rd = zext32 (multiply (s.ch ra) (s.ch rb)) ∧
      multiply (s.ch ra) (s.ch rb) = (2 * (s.ch ra * s.ch rb) + 255) / 510 ∧
      (s.ch rb = 0 → t.readReg rd = 0#32) ∧
      (s.ch rb = 255 → t.readReg rd = zext32 (s.ch ra)) ∧
      (t.readReg rd ≠ 0#32 ↔ 128 ≤ s.ch ra * s.ch rb)

/-- R64. `DIVMUL`: the word, the result in its three cases (zero test first, saturation, round half up), the frame. -/
def Obligations.DivmulCommand : Prop :=
  ∀ (rd ra rb : RegNum) (s : State),
    (∀ w : Word, decode w = .ok (.divmul rd ra rb) ↔ w = formatR 0x11#8 rd ra rb 0 0#12) ∧
    ∃ t, exec (.divmul rd ra rb) s = .next t ∧ s.sameButReg t rd ∧
      t.readReg rd = zext32 (dividMultiply (s.ch ra) (s.ch rb)) ∧
      (s.ch ra = 0 ∨ s.ch rb = 0 → t.readReg rd = 0#32) ∧
      (0 < s.ch rb → s.ch rb ≤ s.ch ra → t.readReg rd = 255#32) ∧
      (0 < s.ch ra → s.ch ra < s.ch rb →
        ∃ r : Nat, t.readReg rd = zext32 r ∧ 1 ≤ r ∧ r ≤ 254 ∧
          2 * s.ch rb * r ≤ 510 * s.ch ra + s.ch rb ∧ 510 * s.ch ra + s.ch rb < 2 * s.ch rb * (r + 1))

/-- R66. `LERP`: the word, the result (the integer nearest to `p + (q-p)*a/255`, exact at both ends), the frame. -/
def Obligations.LerpCommand : Prop :=
  ∀ (rd ra rb rc : RegNum) (s : State),
    (∀ w : Word, decode w = .ok (.lerp rd ra rb rc) ↔ w = formatR 0x12#8 rd ra rb rc 0#12) ∧
    ∃ t r, exec (.lerp rd ra rb rc) s = .next t ∧ s.sameButReg t rd ∧
      t.readReg rd = zext32 r ∧ r = lerp (s.ch ra) (s.ch rb) (s.ch rc) ∧ r ≤ 255 ∧
      -255 < 2 * (255 * (r : Int) - (255 * (s.ch ra : Int) + ((s.ch rb : Int) - s.ch ra) * s.ch rc)) ∧
      2 * (255 * (r : Int) - (255 * (s.ch ra : Int) + ((s.ch rb : Int) - s.ch ra) * s.ch rc)) < 255 ∧
      (s.ch rc = 0 → r = s.ch ra) ∧ (s.ch rc = 255 → r = s.ch rb) ∧ (s.ch ra = s.ch rb → r = s.ch ra)

/-- R68. `PRELERP`: the word, the result (modulo 256, no saturation), the ends of the weight, the frame. -/
def Obligations.PrelerpCommand : Prop :=
  ∀ (rd ra rb rc : RegNum) (s : State),
    (∀ w : Word, decode w = .ok (.prelerp rd ra rb rc) ↔ w = formatR 0x13#8 rd ra rb rc 0#12) ∧
    ∃ t, exec (.prelerp rd ra rb rc) s = .next t ∧ s.sameButReg t rd ∧
      t.readReg rd = zext32 (prelerp (s.ch ra) (s.ch rb) (s.ch rc)) ∧
      prelerp (s.ch ra) (s.ch rb) (s.ch rc) =
        (s.ch ra + s.ch rb - (2 * (s.ch ra * s.ch rc) + 255) / 510) % 256 ∧
      (s.ch rc = 255 → t.readReg rd = zext32 (s.ch rb)) ∧
      (s.ch rc = 0 → t.readReg rd = zext32 ((s.ch ra + s.ch rb) % 256))

/-- R69. `LERP4`: the word, each lane of the result from the same lane of both colours with one weight, weight 0 and 255,
equal colours, the frame. -/
def Obligations.Lerp4Command : Prop :=
  ∀ (rd ra rb rc : RegNum) (s : State),
    (∀ w : Word, decode w = .ok (.lerp4 rd ra rb rc) ↔ w = formatR 0x18#8 rd ra rb rc 0#12) ∧
    ∃ t, exec (.lerp4 rd ra rb rc) s = .next t ∧ s.sameButReg t rd ∧
      (∀ k < 4, lane (t.readReg rd) k = lerp (lane (s.readReg ra) k) (lane (s.readReg rb) k) (s.ch rc)) ∧
      (s.ch rc = 0 → t.readReg rd = s.readReg ra) ∧ (s.ch rc = 255 → t.readReg rd = s.readReg rb) ∧
      (ra = rb → t.readReg rd = s.readReg ra)

/-- R61. `Multiply` on 0..255: the formula, the ranges of its intermediate values (all fit 16 bits), the nearest integer,
no tie. -/
def Obligations.MultiplyIsTheNearestInteger : Prop :=
  ∀ a b : Nat, a ≤ 255 → b ≤ 255 →
    (let p : Int := a * b + 128
     (multiply a b : Int) = asr (asr p 8 + p) 8 ∧ 128 ≤ p ∧ p ≤ 65153 ∧ asr p 8 ≤ 254 ∧ asr p 8 + p ≤ 65407) ∧
    multiply a b ≤ 255 ∧
    -255 < 2 * (255 * (multiply a b : Int) - a * b) ∧ 2 * (255 * (multiply a b : Int) - a * b) < 255

/-- R63. `DividMultiply` on 0..255: the three cases in order, the range of the numerator, round half up. -/
def Obligations.DividMultiplyRoundsHalfUp : Prop :=
  ∀ a b : Nat, a ≤ 255 → b ≤ 255 →
    dividMultiply a b ≤ 255 ∧
    (a = 0 ∨ b = 0 → dividMultiply a b = 0) ∧
    (a ≠ 0 → b ≠ 0 → b ≤ a → dividMultiply a b = 255) ∧
    (0 < a → a < b →
      dividMultiply a b = (a * 255 + b / 2) / b ∧ a * 255 + b / 2 ≤ 64897 ∧ 2 ≤ b ∧
      1 ≤ dividMultiply a b ∧ dividMultiply a b ≤ 254 ∧
      2 * b * dividMultiply a b ≤ 510 * a + b ∧ 510 * a + b < 2 * b * (dividMultiply a b + 1))

/-- R65. `Lerp` on 0..255: the formula with its signed intermediate values and their ranges, the closed forms, the nearest
integer, the exactness requirements, the result between the two ends. -/
def Obligations.LerpIsExactAndNearest : Prop :=
  ∀ p q a : Nat, p ≤ 255 → q ≤ 255 → a ≤ 255 →
    (let c : Int := if p > q then 1 else 0
     let t : Int := ((q : Int) - p) * a + 128 - c
     let d : Int := asr (asr t 8 + t) 8
     (lerp p q a : Int) = p + d ∧ -64898 ≤ t ∧ t ≤ 65153 ∧ -65152 ≤ asr t 8 + t ∧ asr t 8 + t ≤ 65407 ∧
       -255 ≤ d ∧ d ≤ 255 ∧ 0 ≤ p + d ∧ p + d ≤ 255) ∧
    (p ≤ q → lerp p q a = p + multiply (q - p) a) ∧
    (q < p → lerp p q a = p - multiply (p - q) a) ∧
    min p q ≤ lerp p q a ∧ lerp p q a ≤ max p q ∧
    -255 < 2 * (255 * (lerp p q a : Int) - (255 * p + ((q : Int) - p) * a)) ∧
    2 * (255 * (lerp p q a : Int) - (255 * p + ((q : Int) - p) * a)) < 255 ∧
    lerp p q 0 = p ∧ lerp p q 255 = q ∧ lerp p p a = p

/-- R67. `Prelerp` on 0..255: the untruncated value is 0..510, the result is that value modulo 256, and nothing is cut off
when the source channel is a valid premultiplied value (`q <= a`). -/
def Obligations.PrelerpTruncates : Prop :=
  ∀ p q a : Nat, p ≤ 255 → q ≤ 255 → a ≤ 255 →
    multiply p a ≤ p ∧ p + q - multiply p a ≤ 510 ∧
    prelerp p q a = (p + q - multiply p a) % 256 ∧
    (q ≤ a → prelerp p q a = p + q - multiply p a) ∧
    prelerp 255 255 0 = 254

/-- R73 items 1 to 3 and 8, and the recovery property in the restricted form of item 7 (C2). -/
def Obligations.MultiplyLaws : Prop :=
  ∀ a b : Nat, a ≤ 255 → b ≤ 255 →
    multiply a b = multiply b a ∧ multiply a 255 = a ∧ multiply a 0 = 0 ∧
    multiply a b = (2 * (a * b) + 255) / 510 ∧ multiply a b ≤ min a b ∧
    (0 < a → a ≤ b → multiply (dividMultiply a b) b = a)

/-- R73 items 4 to 6, 9 and 10. -/
def Obligations.LerpAndPrelerpLaws : Prop :=
  ∀ p q a : Nat, p ≤ 255 → q ≤ 255 → a ≤ 255 →
    lerp p q 0 = p ∧ lerp p q 255 = q ∧ lerp p p a = p ∧
    lerp p q a + lerp q p a = p + q ∧ lerp p q a = lerp q p (255 - a) ∧
    prelerp p q 255 = q ∧ prelerp p q 0 = (p + q) % 256 ∧ prelerp p 0 a = p - multiply p a

/-! ## The gamma commands -/

/-- R84. `S2L`: the word, the table entry of the code copied unchanged, the entries every admissible table has, the
frame. -/
def Obligations.S2lCommand : Prop :=
  ∀ (rd ra : RegNum) (s : State),
    (∀ w : Word, decode w = .ok (.s2l rd ra) ↔ w = formatR 0x20#8 rd ra 0 0 0#12) ∧
    ∃ t, exec (.s2l rd ra) s = .next t ∧ s.sameButReg t rd ∧
      (∀ i : Fin 256, s.ch ra = i → t.readReg rd = gammaRom.dir[i]) ∧
      (s.ch ra = 0 → t.readReg rd = 0x00000000#32) ∧ (s.ch ra = 255 → t.readReg rd = 0x3F800000#32)

/-- R85. `L2S`: the word; the result `n` is 0..255 and the thresholds that the value exceeds are exactly 1 to `n`; the
binary search gives the same; a NaN and every pattern with the sign bit give 0, `+inf` and every value of 1 and above give
255; the frame. -/
def Obligations.L2sCommand : Prop :=
  ∀ (rd ra : RegNum) (s : State),
    (∀ w : Word, decode w = .ok (.l2s rd ra) ↔ w = formatR 0x21#8 rd ra 0 0 0#12) ∧
    ∃ t n, exec (.l2s rd ra) s = .next t ∧ s.sameButReg t rd ∧ t.readReg rd = zext32 n ∧ n ≤ 255 ∧
      (∀ i : Fin 256, i ≠ 0 → (fgt (s.readReg ra) gammaRom.inv[i] = true ↔ (i : Nat) ≤ n)) ∧
      l2sSearch gammaRom (s.readReg ra) = n ∧
      (isNaN (s.readReg ra) = true ∨ fSign (s.readReg ra) = true → n = 0) ∧
      (fSign (s.readReg ra) = false →
        isInf (s.readReg ra) = true ∨ (isFinite (s.readReg ra) = true ∧ 1 ≤ fval (s.readReg ra)) → n = 255)

/-- R85. The eight-step binary search and the count of exceeded thresholds are the same function, for every admissible pair
of tables. -/
def Obligations.BinarySearchEqualsCount : Prop :=
  ∀ g : GammaRom, admissible g = true → ∀ v : Word, l2sSearch g v = l2sCode g v

/-- R83. `L2S` undoes `S2L` for every code, register pair and instance: a code sent through both comes back. -/
def Obligations.GammaRoundTrip : Prop :=
  ∀ (rd ra re : RegNum) (s : State),
    ∃ t u, exec (.s2l rd ra) s = .next t ∧ exec (.l2s re rd) t = .next u ∧ u.readReg re = zext32 (s.ch ra)

/-- R85, D22. The inverse sampling is monotone: of two patterns that are no NaN, the one that is not greater has no greater
code, whatever the tables hold. -/
def Obligations.InverseSamplingIsMonotone : Prop :=
  ∀ (g : GammaRom) (v w : Word), isNaN v = false → isNaN w = false → fgt v w = false → l2sCode g v ≤ l2sCode g w

/-- R82, R83, R123. The tables of this instance, whatever they are, satisfy every constraint, stated on the exact rational
values; and the direct values strictly increase, which follows. -/
def Obligations.InstanceTablesMeetTheConstraints : Prop :=
  (∀ i : Fin 256, isFinite gammaRom.dir[i] = true ∧ fSign gammaRom.dir[i] = false ∧
    0 ≤ fval gammaRom.dir[i] ∧ fval gammaRom.dir[i] ≤ 1) ∧
  gammaRom.dir[0] = 0x00000000#32 ∧ gammaRom.dir[255] = 0x3F800000#32 ∧
  fval gammaRom.dir[128] < 128 / 255 ∧
  (∀ i j : Fin 256, i < j → fval gammaRom.dir[i] < fval gammaRom.dir[j]) ∧
  (∀ i : Fin 256, i ≠ 0 → isFinite gammaRom.inv[i] = true ∧ fSign gammaRom.inv[i] = false ∧
    fval gammaRom.inv[i] < fval gammaRom.dir[i]) ∧
  (∀ i j : Fin 256, i ≠ 0 → i ≤ j → fval gammaRom.inv[i] ≤ fval gammaRom.inv[j]) ∧
  (∀ i j : Fin 256, i < j → fval gammaRom.dir[i] ≤ fval gammaRom.inv[j])

/-! ## The quantizer -/

/-- R91. `QNT`: the word, the clamped cases, the exact result in between, the frame. -/
def Obligations.QntCommand : Prop :=
  ∀ (rd ra : RegNum) (s : State),
    (∀ w : Word, decode w = .ok (.qnt rd ra) ↔ w = formatR 0x28#8 rd ra 0 0 0#12) ∧
    ∃ t r, exec (.qnt rd ra) s = .next t ∧ s.sameButReg t rd ∧ t.readReg rd = zext32 r ∧
      r = quantize (s.readReg ra) ∧ r ≤ 255 ∧
      (isNaN (s.readReg ra) = true → r = 0) ∧ (fSign (s.readReg ra) = true → r = 0) ∧
      (isInf (s.readReg ra) = true → fSign (s.readReg ra) = false → r = 255) ∧
      (isFinite (s.readReg ra) = true → 1 ≤ fval (s.readReg ra) → r = 255) ∧
      (isFinite (s.readReg ra) = true → fSign (s.readReg ra) = false → fval (s.readReg ra) < 1 →
        (r : Int) = ⌊fval (s.readReg ra) * 255 + 1 / 2⌋)

/-- R90. `Quantize` line by line on the exact rational value, its range, and its thresholds. -/
def Obligations.QuantizeIsExact : Prop :=
  ∀ w : Word,
    quantize w ≤ 255 ∧
    (isNaN w = true → quantize w = 0) ∧
    (isNaN w = false → fSign w = true → quantize w = 0) ∧
    (isNaN w = false → fSign w = false → isInf w = true → quantize w = 255) ∧
    (isFinite w = true → fSign w = false →
      (quantize w : Int) = ⌊max 0 (min (fval w) 1) * 255 + 1 / 2⌋ ∧
      (1 ≤ fval w → quantize w = 255) ∧
      (fval w < 1 → (quantize w : Int) = ⌊fval w * 255 + 1 / 2⌋) ∧
      (∀ k : Nat, 1 ≤ k → k ≤ 254 →
        (quantize w = k ↔ ((k : Rat) - 1 / 2) / 255 ≤ fval w ∧ fval w < ((k : Rat) + 1 / 2) / 255)) ∧
      (quantize w = 0 ↔ fval w < 1 / 510) ∧ (quantize w = 255 ↔ 509 / 510 ≤ fval w))

/-- R92. The exact integer recipe, with the mantissa and exponent of R8, for a non-negative finite value below 1. -/
def Obligations.QuantizeIntegerRecipe : Prop :=
  ∀ w : Word, isFinite w = true → fSign w = false → fval w < 1 →
    ∃ (m : Nat) (k : Nat),
      (fExp w = 0 → m = fFrac w ∧ k = 149) ∧ (fExp w ≠ 0 → m = 2 ^ 23 + fFrac w ∧ k + fExp w = 150) ∧
      fExp w ≤ 126 ∧ 24 ≤ k ∧ fval w = (m : Rat) / 2 ^ k ∧ m * 255 < 2 ^ 32 ∧
      quantize w = (m * 255 + 2 ^ (k - 1)) / 2 ^ k ∧ (33 ≤ k → quantize w = 0)

/-! ## Data movement and the pseudo-instructions -/

/-- R95. `LDI`: the word, bits 15..0 get the immediate, bits 31..16 become 0, the frame. -/
def Obligations.LdiCommand : Prop :=
  ∀ (rd : RegNum) (imm : Imm16) (s : State),
    (∀ w : Word, decode w = .ok (.ldi rd imm) ↔ w = formatI 0x30#8 rd 0#5 imm) ∧
    ∃ t, exec (.ldi rd imm) s = .next t ∧ s.sameButReg t rd ∧
      (t.readReg rd).extractLsb' 0 16 = imm ∧ (t.readReg rd).extractLsb' 16 16 = 0#16 ∧
      t.ch rd = imm.toNat % 256

/-- R96. `LDIH`: the word, bits 31..16 get the immediate, bits 15..0 keep their old value, the frame; after an `LDI` on the
same register it completes any 32-bit constant. -/
def Obligations.LdihCommand : Prop :=
  ∀ (rd : RegNum) (imm : Imm16) (s : State),
    (∀ w : Word, decode w = .ok (.ldih rd imm) ↔ w = formatI 0x31#8 rd 0#5 imm) ∧
    ∃ t, exec (.ldih rd imm) s = .next t ∧ s.sameButReg t rd ∧
      (t.readReg rd).toNat = imm.toNat * 2 ^ 16 + (s.readReg rd).toNat % 2 ^ 16 ∧
      (t.readReg rd).extractLsb' 16 16 = imm ∧
      (t.readReg rd).extractLsb' 0 16 = (s.readReg rd).extractLsb' 0 16 ∧
      ∀ lo : Imm16, ∃ u v, exec (.ldi rd lo) s = .next u ∧ exec (.ldih rd imm) u = .next v ∧ v.readReg rd = imm ++ lo

/-- R97. `OUT`: the word, the full 32-bit value appended once, nothing else changed; while `FAULT = 1` it sends nothing. -/
def Obligations.OutCommand : Prop :=
  ∀ (ra : RegNum) (s : State),
    (∀ w : Word, decode w = .ok (.out ra) ↔ w = formatR 0x38#8 0 ra 0 0 0#12) ∧
    ∃ t, exec (.out ra) s = .next t ∧ t.out = s.out ++ [s.readReg ra] ∧ t.x = s.x ∧ t.fault = s.fault ∧
      t.fword = s.fword ∧ s.samePorts t ∧ (s.fault = true → deliver (encode (.out ra)) s = .next s)

/-- R55. Each pseudo-instruction, delivered to a block that is not faulted: `MULTCOVER` and `SCALECOVER` are `MUL` in either
operand order, `GRADIENT` moves the colour in `rd` in place, `LI` is `LDI` of the lower half and then `LDIH` of the upper
half and loads any 32-bit constant, `MOV` copies all 32 bits; each leaves everything but `rd` as it was. -/
def Obligations.PseudoInstructions : Prop :=
  ∀ (rd ra rb : RegNum) (c : Nat) (s : State), c < 2 ^ 32 → s.fault = false →
    (∃ ws t, assemble (.multcover rd ra rb) = some ws ∧ assemble (.scalecover rd ra rb) = some ws ∧
      ws = [encode (.mul rd ra rb)] ∧ deliverAll ws s = .next t ∧
      exec (.mul rd ra rb) s = .next t ∧ exec (.mul rd rb ra) s = .next t ∧ s.sameButReg t rd) ∧
    (∃ ws t, assemble (.gradient rd ra rb) = some ws ∧ ws = [encode (.lerp4 rd rd ra rb)] ∧
      deliverAll ws s = .next t ∧ s.sameButReg t rd ∧
      ∀ k < 4, lane (t.readReg rd) k = lerp (lane (s.readReg rd) k) (lane (s.readReg ra) k) (s.ch rb)) ∧
    (∃ ws t, assemble (.li rd c) = some ws ∧
      ws = [encode (.ldi rd ((BitVec.ofNat 32 c).extractLsb' 0 16)), encode (.ldih rd ((BitVec.ofNat 32 c).extractLsb' 16 16))] ∧
      deliverAll ws s = .next t ∧ s.sameButReg t rd ∧ t.readReg rd = BitVec.ofNat 32 c) ∧
    (∃ ws t, assemble (.mov rd ra) = some ws ∧ ws = [encode (.lerp4 rd ra ra ra)] ∧ deliverAll ws s = .next t ∧
      s.sameButReg t rd ∧ t.readReg rd = s.readReg ra)
end

