-- ==== Sys2Proof/Laws/Encoding.lean ====
section
/-! SUPPORT. The fields of a word built from its fields (R46, R47), a word rebuilt from its fields, the must-be-zero masks
as statements about fields (R49), and the operation codes as the decoder finds them (R50). -/

namespace Sys2Proof

@[simp] theorem regBits_toFin (r : RegNum) : (regBits r).toFin = r := rfl

/-- A register field that is zero names register 0. -/
@[simp] theorem regBits_zero : regBits 0 = 0#3 := rfl

/-- The field of a register number read back from three bits. -/
theorem regBits_of_toFin (b : BitVec 3) : regBits b.toFin = b := rfl

/-! ## Fields of format R -/

@[simp] theorem opOf_formatR (op : BitVec 8) (rd ra rb rc : RegNum) (z : BitVec 12) :
    opOf (formatR op rd ra rb rc z) = op := by
  unfold opOf formatR
  ext i hi
  simp only [BitVec.getElem_extractLsb', BitVec.getLsbD_append]
  interval_cases i <;> simp

@[simp] theorem rdOf_formatR (op : BitVec 8) (rd ra rb rc : RegNum) (z : BitVec 12) :
    rdOf (formatR op rd ra rb rc z) = rd := by
  have h : (formatR op rd ra rb rc z).extractLsb' 21 3 = regBits rd := by
    unfold formatR
    ext i hi
    simp only [BitVec.getElem_extractLsb', BitVec.getLsbD_append]
    interval_cases i <;> simp
  unfold rdOf
  rw [h, regBits_toFin]

@[simp] theorem raOf_formatR (op : BitVec 8) (rd ra rb rc : RegNum) (z : BitVec 12) :
    raOf (formatR op rd ra rb rc z) = ra := by
  have h : (formatR op rd ra rb rc z).extractLsb' 18 3 = regBits ra := by
    unfold formatR
    ext i hi
    simp only [BitVec.getElem_extractLsb', BitVec.getLsbD_append]
    interval_cases i <;> simp
  unfold raOf
  rw [h, regBits_toFin]

@[simp] theorem rbOf_formatR (op : BitVec 8) (rd ra rb rc : RegNum) (z : BitVec 12) :
    rbOf (formatR op rd ra rb rc z) = rb := by
  have h : (formatR op rd ra rb rc z).extractLsb' 15 3 = regBits rb := by
    unfold formatR
    ext i hi
    simp only [BitVec.getElem_extractLsb', BitVec.getLsbD_append]
    interval_cases i <;> simp
  unfold rbOf
  rw [h, regBits_toFin]

@[simp] theorem rcOf_formatR (op : BitVec 8) (rd ra rb rc : RegNum) (z : BitVec 12) :
    rcOf (formatR op rd ra rb rc z) = rc := by
  have h : (formatR op rd ra rb rc z).extractLsb' 12 3 = regBits rc := by
    unfold formatR
    ext i hi
    simp only [BitVec.getElem_extractLsb', BitVec.getLsbD_append]
    interval_cases i <;> simp
  unfold rcOf
  rw [h, regBits_toFin]

@[simp] theorem z12_formatR (op : BitVec 8) (rd ra rb rc : RegNum) (z : BitVec 12) :
    (formatR op rd ra rb rc z).extractLsb' 0 12 = z := by
  unfold formatR
  ext i hi
  simp only [BitVec.getElem_extractLsb', BitVec.getLsbD_append]
  interval_cases i <;> simp

/-! ## Fields of format I -/

@[simp] theorem opOf_formatI (op : BitVec 8) (rd : RegNum) (z : BitVec 5) (imm : Imm16) :
    opOf (formatI op rd z imm) = op := by
  unfold opOf formatI
  ext i hi
  simp only [BitVec.getElem_extractLsb', BitVec.getLsbD_append]
  interval_cases i <;> simp

@[simp] theorem rdOf_formatI (op : BitVec 8) (rd : RegNum) (z : BitVec 5) (imm : Imm16) :
    rdOf (formatI op rd z imm) = rd := by
  have h : (formatI op rd z imm).extractLsb' 21 3 = regBits rd := by
    unfold formatI
    ext i hi
    simp only [BitVec.getElem_extractLsb', BitVec.getLsbD_append]
    interval_cases i <;> simp
  unfold rdOf
  rw [h, regBits_toFin]

@[simp] theorem z5_formatI (op : BitVec 8) (rd : RegNum) (z : BitVec 5) (imm : Imm16) :
    (formatI op rd z imm).extractLsb' 16 5 = z := by
  unfold formatI
  ext i hi
  simp only [BitVec.getElem_extractLsb', BitVec.getLsbD_append]
  interval_cases i <;> simp

@[simp] theorem imm16Of_formatI (op : BitVec 8) (rd : RegNum) (z : BitVec 5) (imm : Imm16) :
    imm16Of (formatI op rd z imm) = imm := by
  unfold imm16Of formatI
  ext i hi
  simp only [BitVec.getElem_extractLsb', BitVec.getLsbD_append]
  interval_cases i <;> simp

/-! ## A word rebuilt from its fields -/

theorem formatR_of_fields (w : Word) :
    formatR (opOf w) (rdOf w) (raOf w) (rbOf w) (rcOf w) (w.extractLsb' 0 12) = w := by
  unfold formatR opOf rdOf raOf rbOf rcOf
  simp only [regBits_of_toFin]
  ext i hi
  rw [← BitVec.getLsbD_eq_getElem]
  simp only [BitVec.getLsbD_append, BitVec.getLsbD_extractLsb']
  interval_cases i <;> simp

theorem formatI_of_fields (w : Word) :
    formatI (opOf w) (rdOf w) (w.extractLsb' 16 5) (imm16Of w) = w := by
  unfold formatI opOf rdOf imm16Of
  simp only [regBits_of_toFin]
  ext i hi
  rw [← BitVec.getLsbD_eq_getElem]
  simp only [BitVec.getLsbD_append, BitVec.getLsbD_extractLsb']
  interval_cases i <;> simp

/-! ## The operation codes -/

/-- The decoder finds each assigned code's own row. -/
@[simp] theorem Opcode.ofCode_code (o : Opcode) : Opcode.ofCode o.code = some o := by
  cases o <;> decide

/-- A row the decoder finds has the code it was asked for. -/
theorem Opcode.code_of_ofCode (b : BitVec 8) (o : Opcode) (h : Opcode.ofCode b = some o) : o.code = b := by
  simpa using List.find?_some h

/-! ## The must-be-zero masks (R49, R50) -/

/-- A register field is zero when its three bits are. -/
theorem toFin_eq_zero (b : BitVec 3) : b.toFin = (0 : RegNum) ↔ b = 0#3 :=
  ⟨fun h => by rw [← regBits_of_toFin b, show (b.toFin : RegNum) = 0 from h, regBits_zero], fun h => by rw [h]; rfl⟩

/-- Bit `k` of a word that satisfies a mask and pattern, where the mask has a 1. -/
theorem bit_of_mask (w m p : Word) (h : w &&& m = p) (k : Nat) (hk : m.getLsbD k = true) :
    w.getLsbD k = p.getLsbD k := by
  rw [← h, BitVec.getLsbD_and, hk, Bool.and_true]

/-- `MUL`, `DIVMUL`: `rc` and `z12` must be zero. -/
theorem legal_rc_iff (w : Word) (c : BitVec 8) :
    w &&& 0xFF007FFF#32 = c ++ 0#24 ↔ opOf w = c ∧ rcOf w = 0 ∧ w.extractLsb' 0 12 = 0#12 := by
  constructor
  · intro h
    have hb := bit_of_mask w 0xFF007FFF#32 (c ++ 0#24) h
    refine ⟨?_, ?_, ?_⟩
    · unfold opOf
      ext i hi
      rw [BitVec.getElem_extractLsb', hb _ (by interval_cases i <;> decide), BitVec.getLsbD_append]
      interval_cases i <;> simp
    · unfold rcOf
      rw [toFin_eq_zero]
      ext i hi
      rw [BitVec.getElem_extractLsb', hb _ (by interval_cases i <;> decide), BitVec.getLsbD_append]
      interval_cases i <;> simp
    · ext i hi
      rw [BitVec.getElem_extractLsb', hb _ (by interval_cases i <;> decide), BitVec.getLsbD_append]
      interval_cases i <;> simp
  · rintro ⟨h0, h1, h2⟩
    rw [← formatR_of_fields w, h0, h1, h2]
    unfold formatR
    simp only [regBits_zero]
    ext i hi
    rw [BitVec.getElem_and, ← BitVec.getLsbD_eq_getElem, ← BitVec.getLsbD_eq_getElem, ← BitVec.getLsbD_eq_getElem]
    simp only [BitVec.getLsbD_append]
    interval_cases i <;> simp

/-- `LERP`, `PRELERP`, `LERP4`: `z12` must be zero. -/
theorem legal_z12_iff (w : Word) (c : BitVec 8) :
    w &&& 0xFF000FFF#32 = c ++ 0#24 ↔ opOf w = c ∧ w.extractLsb' 0 12 = 0#12 := by
  constructor
  · intro h
    have hb := bit_of_mask w 0xFF000FFF#32 (c ++ 0#24) h
    refine ⟨?_, ?_⟩
    · unfold opOf
      ext i hi
      rw [BitVec.getElem_extractLsb', hb _ (by interval_cases i <;> decide), BitVec.getLsbD_append]
      interval_cases i <;> simp
    · ext i hi
      rw [BitVec.getElem_extractLsb', hb _ (by interval_cases i <;> decide), BitVec.getLsbD_append]
      interval_cases i <;> simp
  · rintro ⟨h0, h1⟩
    rw [← formatR_of_fields w, h0, h1]
    unfold formatR
    ext i hi
    rw [BitVec.getElem_and, ← BitVec.getLsbD_eq_getElem, ← BitVec.getLsbD_eq_getElem, ← BitVec.getLsbD_eq_getElem]
    simp only [BitVec.getLsbD_append]
    interval_cases i <;> simp

/-- `S2L`, `L2S`, `QNT`: `rb`, `rc` and `z12` must be zero. -/
theorem legal_rb_iff (w : Word) (c : BitVec 8) :
    w &&& 0xFF03FFFF#32 = c ++ 0#24 ↔ opOf w = c ∧ rbOf w = 0 ∧ rcOf w = 0 ∧ w.extractLsb' 0 12 = 0#12 := by
  constructor
  · intro h
    have hb := bit_of_mask w 0xFF03FFFF#32 (c ++ 0#24) h
    refine ⟨?_, ?_, ?_, ?_⟩
    · unfold opOf
      ext i hi
      rw [BitVec.getElem_extractLsb', hb _ (by interval_cases i <;> decide), BitVec.getLsbD_append]
      interval_cases i <;> simp
    · unfold rbOf
      rw [toFin_eq_zero]
      ext i hi
      rw [BitVec.getElem_extractLsb', hb _ (by interval_cases i <;> decide), BitVec.getLsbD_append]
      interval_cases i <;> simp
    · unfold rcOf
      rw [toFin_eq_zero]
      ext i hi
      rw [BitVec.getElem_extractLsb', hb _ (by interval_cases i <;> decide), BitVec.getLsbD_append]
      interval_cases i <;> simp
    · ext i hi
      rw [BitVec.getElem_extractLsb', hb _ (by interval_cases i <;> decide), BitVec.getLsbD_append]
      interval_cases i <;> simp
  · rintro ⟨h0, h1, h2, h3⟩
    rw [← formatR_of_fields w, h0, h1, h2, h3]
    unfold formatR
    simp only [regBits_zero]
    ext i hi
    rw [BitVec.getElem_and, ← BitVec.getLsbD_eq_getElem, ← BitVec.getLsbD_eq_getElem, ← BitVec.getLsbD_eq_getElem]
    simp only [BitVec.getLsbD_append]
    interval_cases i <;> simp

/-- `OUT`: `rd`, `rb`, `rc` and `z12` must be zero. -/
theorem legal_rd_iff (w : Word) (c : BitVec 8) :
    w &&& 0xFFE3FFFF#32 = c ++ 0#24 ↔ opOf w = c ∧ rdOf w = 0 ∧ rbOf w = 0 ∧ rcOf w = 0 ∧ w.extractLsb' 0 12 = 0#12 := by
  constructor
  · intro h
    have hb := bit_of_mask w 0xFFE3FFFF#32 (c ++ 0#24) h
    refine ⟨?_, ?_, ?_, ?_, ?_⟩
    · unfold opOf
      ext i hi
      rw [BitVec.getElem_extractLsb', hb _ (by interval_cases i <;> decide), BitVec.getLsbD_append]
      interval_cases i <;> simp
    · unfold rdOf
      rw [toFin_eq_zero]
      ext i hi
      rw [BitVec.getElem_extractLsb', hb _ (by interval_cases i <;> decide), BitVec.getLsbD_append]
      interval_cases i <;> simp
    · unfold rbOf
      rw [toFin_eq_zero]
      ext i hi
      rw [BitVec.getElem_extractLsb', hb _ (by interval_cases i <;> decide), BitVec.getLsbD_append]
      interval_cases i <;> simp
    · unfold rcOf
      rw [toFin_eq_zero]
      ext i hi
      rw [BitVec.getElem_extractLsb', hb _ (by interval_cases i <;> decide), BitVec.getLsbD_append]
      interval_cases i <;> simp
    · ext i hi
      rw [BitVec.getElem_extractLsb', hb _ (by interval_cases i <;> decide), BitVec.getLsbD_append]
      interval_cases i <;> simp
  · rintro ⟨h0, h1, h2, h3, h4⟩
    rw [← formatR_of_fields w, h0, h1, h2, h3, h4]
    unfold formatR
    simp only [regBits_zero]
    ext i hi
    rw [BitVec.getElem_and, ← BitVec.getLsbD_eq_getElem, ← BitVec.getLsbD_eq_getElem, ← BitVec.getLsbD_eq_getElem]
    simp only [BitVec.getLsbD_append]
    interval_cases i <;> simp

/-- `LDI`, `LDIH`: `z5` must be zero. -/
theorem legal_z5_iff (w : Word) (c : BitVec 8) :
    w &&& 0xFF1F0000#32 = c ++ 0#24 ↔ opOf w = c ∧ w.extractLsb' 16 5 = 0#5 := by
  constructor
  · intro h
    have hb := bit_of_mask w 0xFF1F0000#32 (c ++ 0#24) h
    refine ⟨?_, ?_⟩
    · unfold opOf
      ext i hi
      rw [BitVec.getElem_extractLsb', hb _ (by interval_cases i <;> decide), BitVec.getLsbD_append]
      interval_cases i <;> simp
    · ext i hi
      rw [BitVec.getElem_extractLsb', hb _ (by interval_cases i <;> decide), BitVec.getLsbD_append]
      interval_cases i <;> simp
  · rintro ⟨h0, h1⟩
    rw [← formatI_of_fields w, h0, h1]
    unfold formatI
    ext i hi
    rw [BitVec.getElem_and, ← BitVec.getLsbD_eq_getElem, ← BitVec.getLsbD_eq_getElem, ← BitVec.getLsbD_eq_getElem]
    simp only [BitVec.getLsbD_append]
    interval_cases i <;> simp

end Sys2Proof
end

