-- ==== Sys2Proof/Laws/Float.lean ====
section
/-! SUPPORT. Exact values of binary32 patterns: the order of the values is the order of their whole-number numerators. -/

namespace Sys2Proof.Machine

/-- Values compare as their numerators in units of 2^-149 (R8). -/
theorem fval_lt_iff (a b : Word) : fval a < fval b ↔ fNum a < fNum b := by
  unfold fval
  rw [div_lt_div_iff_of_pos_right (by norm_num), Int.cast_lt]

/-- The same for "at most". -/
theorem fval_le_iff (a b : Word) : fval a ≤ fval b ↔ fNum a ≤ fNum b := by
  unfold fval
  rw [div_le_div_iff_of_pos_right (by norm_num), Int.cast_le]

/-- A value is at least 1 exactly when its numerator is at least 2^149. -/
theorem one_le_fval_iff (w : Word) : 1 ≤ fval w ↔ (2 ^ 149 : Int) ≤ fNum w := by
  unfold fval
  rw [le_div_iff₀ (by norm_num), one_mul]
  exact_mod_cast Iff.rfl

/-- A pattern with sign bit 0 has its magnitude as numerator (R8). -/
theorem fNum_of_not_sign (w : Word) (h : fSign w = false) : fNum w = (fMag w : Int) := by simp [fNum, h]

/-- A pattern with sign bit 1 has the negated magnitude as numerator (R8). -/
theorem fNum_of_sign (w : Word) (h : fSign w = true) : fNum w = -(fMag w : Int) := by simp [fNum, h]

/-- On finite patterns `fgt` is the order of the exact values (R6). -/
theorem fgt_finite (a b : Word) (ha : isFinite a = true) (hb : isFinite b = true) :
    fgt a b = decide (fval b < fval a) := by
  have ha' : fExp a ≠ 255 := by simpa [isFinite] using ha
  have hb' : fExp b ≠ 255 := by simpa [isFinite] using hb
  simp [fgt, isNaN, isInf, ha', hb', fval_lt_iff]

/-- A pattern is finite, an infinity or a NaN (R8). -/
theorem float_trichotomy (w : Word) : isFinite w = true ∨ isInf w = true ∨ isNaN w = true := by
  unfold isFinite isInf isNaN
  by_cases h : fExp w = 255 <;> by_cases h' : fFrac w = 0 <;> simp [h, h']

end Sys2Proof.Machine
end

