-- ==== Sys2Proof/Laws/Gamma.lean ====
section
/-! SUPPORT. What is known of every instance's tables: R82 and R83 entry by entry, and that the tables of this instance
and the reference tables satisfy them. -/

namespace Sys2Proof.Machine

/-- R82 and R83 as statements about each entry. -/
theorem admissible_iff (g : GammaRom) :
    admissible g = true ↔
      (∀ i : Fin 256, isNonNegFinite g.dir[i] = true ∧ fMag g.dir[i] ≤ 2 ^ 149) ∧
      g.dir[0] = 0x00000000#32 ∧ g.dir[255] = 0x3F800000#32 ∧
      (∀ i : Fin 255, fMag g.dir[i.castSucc] ≤ fMag g.dir[i.succ]) ∧
      fMag g.dir[128] * 255 < 128 * 2 ^ 149 ∧
      (∀ i : Fin 256, i ≠ 0 → isNonNegFinite g.inv[i] = true) ∧
      (∀ i : Fin 255, i ≠ 0 → fMag g.inv[i.castSucc] ≤ fMag g.inv[i.succ]) ∧
      (∀ i : Fin 256, i ≠ 0 → fMag g.inv[i] < fMag g.dir[i]) ∧
      (∀ i : Fin 255, fMag g.dir[i.castSucc] ≤ fMag g.inv[i.succ]) := by
  simp only [admissible, dirInUnit, dirRises, invFinite, invRises, invBelowDir, invAboveDir, Bool.and_eq_true,
    List.all_eq_true, List.mem_finRange, forall_const, decide_eq_true_eq, beq_iff_eq, Bool.or_eq_true, and_assoc,
    ← or_iff_not_imp_left]

/-! ## What R82 and R83 give for any two entries -/

/-- What a finite, non-negative pattern is not (R8). -/
theorem of_isNonNegFinite (w : Word) (h : isNonNegFinite w = true) :
    isFinite w = true ∧ fSign w = false ∧ isNaN w = false ∧ isInf w = false := by
  simp only [isNonNegFinite, Bool.and_eq_true, Bool.not_eq_true'] at h
  have hf := h.1
  simp only [isFinite, bne_iff_ne, ne_eq] at hf
  exact ⟨h.1, h.2, by simp [isNaN, hf], by simp [isInf, hf]⟩

/-- A sequence that rises at every step rises between any two places. -/
theorem le_of_rises (f : Nat → Nat) (a b : Nat) (hab : a ≤ b) (h : ∀ k, a ≤ k → k < b → f k ≤ f (k + 1)) :
    f a ≤ f b := by
  induction b, hab using Nat.le_induction with
  | base => exact le_rfl
  | succ n hn ih => exact (ih fun k h1 h2 => h k h1 (by omega)).trans (h n hn (by omega))

/-- The thresholds rise between any two codes from 1 on (R83 (e)). -/
theorem inv_mono (g : GammaRom) (hg : admissible g = true) (i j : Fin 256) (hi : i ≠ 0) (hij : i ≤ j) :
    fMag g.inv[i] ≤ fMag g.inv[j] := by
  obtain ⟨-, -, -, -, -, -, h, -⟩ := (admissible_iff g).1 hg
  have key := le_of_rises (fun k => if hk : k < 256 then fMag (g.inv[k]'hk) else 0) i j hij ?_
  · simpa using key
  · intro k h1 h2
    have hk : k < 255 := by omega
    have hi' : (i : Nat) ≠ 0 := fun e => hi (Fin.ext e)
    simp only [show k < 256 by omega, show k + 1 < 256 by omega, dite_true]
    have step := h ⟨k, hk⟩ (fun e => by have := congrArg Fin.val e; simp only [Fin.val_zero] at this; omega)
    simpa using step

/-- A threshold lies strictly below the direct value of its own code (R83 (f)). -/
theorem inv_lt_dir (g : GammaRom) (hg : admissible g = true) (i : Fin 256) (hi : i ≠ 0) :
    fMag g.inv[i] < fMag g.dir[i] := by
  obtain ⟨-, -, -, -, -, -, -, h, -⟩ := (admissible_iff g).1 hg
  exact h i hi

/-- A direct value lies at or below every threshold of a higher code (R83 (e), (g)). -/
theorem dir_le_inv (g : GammaRom) (hg : admissible g = true) (i j : Fin 256) (hij : i < j) :
    fMag g.dir[i] ≤ fMag g.inv[j] := by
  obtain ⟨-, -, -, -, -, -, -, -, h⟩ := (admissible_iff g).1 hg
  have hi : (i : Nat) < 255 := by omega
  have h1 := h ⟨i, hi⟩
  have h2 := inv_mono g hg ⟨i + 1, by omega⟩ j (fun e => by have := congrArg Fin.val e; simp at this) hij
  simp only [Fin.getElem_fin, Fin.val_castSucc, Fin.val_succ] at h1 h2 ⊢
  omega

/-- The entries that every admissible table has, at an index given by its number (R82 (b), (d)). -/
theorem dir_fixed (g : GammaRom) (hg : admissible g = true) (i : Fin 256) :
    ((i : Nat) = 0 → g.dir[i] = 0x00000000#32) ∧ ((i : Nat) = 255 → g.dir[i] = 0x3F800000#32) ∧
    ((i : Nat) = 128 → fMag g.dir[i] * 255 < 128 * 2 ^ 149) := by
  obtain ⟨-, h0, h255, -, h128, -⟩ := (admissible_iff g).1 hg
  simp only [Fin.getElem_fin]
  refine ⟨fun h => ?_, fun h => ?_, fun h => ?_⟩
  · simpa only [h] using h0
  · simpa only [h] using h255
  · simpa only [h] using h128

/-! ## The reference pair (R86) -/

/-- Every entry of the reference pair is finite, non-negative and at most 1. -/
theorem gammaRef_entries :
    (gammaDirRef ++ gammaInvRef).all (fun w => isNonNegFinite w && decide (fMag w ≤ 2 ^ 149)) = true := by decide +kernel

/-- `d` and `v` list direct values and thresholds from one code on; each threshold lies at or above the direct value
before it, strictly below its own, and the lists rise. -/
def interleaved : List Word → List Word → Bool
  | d :: d' :: ds, v :: v' :: vs =>
    decide (fMag d ≤ fMag v') && decide (fMag v' < fMag d') && decide (fMag v ≤ fMag v')
      && interleaved (d' :: ds) (v' :: vs)
  | _, _ => true

theorem gammaRef_interleaved : interleaved gammaDirRef gammaInvRef = true := by decide +kernel

/-- What `interleaved` says of two neighbours. -/
theorem interleaved_at (d v : List Word) (h : interleaved d v = true) (k : Nat) (hd : k + 1 < d.length)
    (hv : k + 1 < v.length) :
    fMag d[k] ≤ fMag v[k + 1] ∧ fMag v[k + 1] < fMag d[k + 1] ∧ fMag v[k] ≤ fMag v[k + 1] := by
  induction d, v using interleaved.induct generalizing k with
  | case1 a a' as b b' bs ih =>
    simp only [interleaved, Bool.and_eq_true, decide_eq_true_eq] at h
    cases k with
    | zero => exact ⟨h.1.1.1, h.1.1.2, h.1.2⟩
    | succ k => exact ih h.2 k (by simpa using hd) (by simpa using hv)
  | case2 d v hno =>
    obtain ⟨a, a', as, rfl⟩ : ∃ a a' as, d = a :: a' :: as := by
      match d, hd with
      | a :: a' :: as, _ => exact ⟨a, a', as, rfl⟩
    obtain ⟨b, b', bs, rfl⟩ : ∃ b b' bs, v = b :: b' :: bs := by
      match v, hv with
      | b :: b' :: bs, _ => exact ⟨b, b', bs, rfl⟩
    exact (hno _ _ _ _ _ _ rfl rfl).elim

theorem gammaDirRef_size : gammaDirRef.length = 256 := by simpa using gammaDirRef_length

theorem gammaInvRef_size : gammaInvRef.length = 256 := by simpa using gammaInvRef_length

theorem gammaRef_dir (i : Fin 256) : gammaRef.dir[i] = gammaDirRef[i.val]'(by rw [gammaDirRef_size]; exact i.isLt) := by
  simp only [gammaRef, Fin.getElem_fin, Vector.getElem_mk, List.getElem_toArray]

theorem gammaRef_inv (i : Fin 256) : gammaRef.inv[i] = gammaInvRef[i.val]'(by rw [gammaInvRef_size]; exact i.isLt) := by
  simp only [gammaRef, Fin.getElem_fin, Vector.getElem_mk, List.getElem_toArray]

theorem gammaRef_step (i : Fin 255) :
    fMag gammaRef.dir[i.castSucc] ≤ fMag gammaRef.inv[i.succ] ∧
    fMag gammaRef.inv[i.succ] < fMag gammaRef.dir[i.succ] ∧
    fMag gammaRef.inv[i.castSucc] ≤ fMag gammaRef.inv[i.succ] := by
  simp only [gammaRef, Fin.getElem_fin, Vector.getElem_mk, List.getElem_toArray, Fin.val_castSucc, Fin.val_succ]
  exact interleaved_at _ _ gammaRef_interleaved i.val (by rw [gammaDirRef_size]; omega) (by rw [gammaInvRef_size]; omega)

theorem gammaRef_entry (w : Word) (h : w ∈ gammaDirRef ++ gammaInvRef) :
    isNonNegFinite w = true ∧ fMag w ≤ 2 ^ 149 := by
  simpa using List.all_eq_true.1 gammaRef_entries w h

/-- The reference instantiation satisfies R82 and R83, as R86 says. -/
theorem gammaRef_admissible : admissible gammaRef = true := by
  rw [admissible_iff]
  refine ⟨fun i => ?_, by decide +kernel, by decide +kernel, fun i => ?_, by decide +kernel, fun i _ => ?_,
    fun i _ => (gammaRef_step i).2.2, fun i hi => ?_, fun i => (gammaRef_step i).1⟩
  · rw [gammaRef_dir]
    exact gammaRef_entry _ (List.mem_append_left _ (List.getElem_mem _))
  · exact ((gammaRef_step i).1.trans (gammaRef_step i).2.1.le)
  · rw [gammaRef_inv]
    exact (gammaRef_entry _ (List.mem_append_right _ (List.getElem_mem _))).1
  · obtain ⟨k, rfl⟩ := Fin.exists_succ_eq.2 hi
    exact (gammaRef_step k).2.1

/-- The tables of this instance satisfy R82 and R83, whatever they are (R123). -/
theorem gammaRom_admissible : admissible gammaRom = true := by
  unfold gammaRom
  split
  · assumption
  · exact gammaRef_admissible

end Sys2Proof.Machine
end

