-- ==== Sys2Proof/Laws/State.lean ====
section
/-! SUPPORT. One lemma per field per update of State, and the read-after-write laws of the registers. -/

namespace Sys2Proof.Machine

@[simp] theorem State.writeReg_x (s : State) (r : RegNum) (v : Word) : (s.writeReg r v).x = s.x.set r v := rfl
@[simp] theorem State.writeReg_out (s : State) (r : RegNum) (v : Word) : (s.writeReg r v).out = s.out := rfl
@[simp] theorem State.writeReg_fault (s : State) (r : RegNum) (v : Word) : (s.writeReg r v).fault = s.fault := rfl
@[simp] theorem State.writeReg_fword (s : State) (r : RegNum) (v : Word) : (s.writeReg r v).fword = s.fword := rfl
@[simp] theorem State.writeReg_pending (s : State) (r : RegNum) (v : Word) : (s.writeReg r v).pending = s.pending := rfl
@[simp] theorem State.writeReg_taken (s : State) (r : RegNum) (v : Word) : (s.writeReg r v).taken = s.taken := rfl
@[simp] theorem State.writeReg_received (s : State) (r : RegNum) (v : Word) : (s.writeReg r v).received = s.received := rfl

@[simp] theorem State.appendOut_x (s : State) (w : Word) : (s.appendOut w).x = s.x := rfl
@[simp] theorem State.appendOut_out (s : State) (w : Word) : (s.appendOut w).out = s.out ++ [w] := rfl
@[simp] theorem State.appendOut_fault (s : State) (w : Word) : (s.appendOut w).fault = s.fault := rfl
@[simp] theorem State.appendOut_fword (s : State) (w : Word) : (s.appendOut w).fword = s.fword := rfl
@[simp] theorem State.appendOut_pending (s : State) (w : Word) : (s.appendOut w).pending = s.pending := rfl
@[simp] theorem State.appendOut_taken (s : State) (w : Word) : (s.appendOut w).taken = s.taken := rfl
@[simp] theorem State.appendOut_received (s : State) (w : Word) : (s.appendOut w).received = s.received := rfl

@[simp] theorem State.raiseIllegal_x (s : State) (w : Word) : (s.raiseIllegal w).x = s.x := rfl
@[simp] theorem State.raiseIllegal_out (s : State) (w : Word) : (s.raiseIllegal w).out = s.out := rfl
@[simp] theorem State.raiseIllegal_fault (s : State) (w : Word) : (s.raiseIllegal w).fault = true := rfl
@[simp] theorem State.raiseIllegal_fword (s : State) (w : Word) : (s.raiseIllegal w).fword = w := rfl
@[simp] theorem State.raiseIllegal_pending (s : State) (w : Word) : (s.raiseIllegal w).pending = s.pending := rfl
@[simp] theorem State.raiseIllegal_taken (s : State) (w : Word) : (s.raiseIllegal w).taken = s.taken := rfl
@[simp] theorem State.raiseIllegal_received (s : State) (w : Word) : (s.raiseIllegal w).received = s.received := rfl

@[simp] theorem State.hostReset_x (s : State) : (s.hostReset).x = Vector.replicate 8 0#32 := rfl
@[simp] theorem State.hostReset_out (s : State) : (s.hostReset).out = [] := rfl
@[simp] theorem State.hostReset_fault (s : State) : (s.hostReset).fault = false := rfl
@[simp] theorem State.hostReset_fword (s : State) : (s.hostReset).fword = 0#32 := rfl
@[simp] theorem State.hostReset_pending (s : State) : (s.hostReset).pending = s.pending := rfl
@[simp] theorem State.hostReset_taken (s : State) : (s.hostReset).taken = 0 := rfl
@[simp] theorem State.hostReset_received (s : State) : (s.hostReset).received = s.received := rfl

@[simp] theorem State.offer_x (s : State) (e : HostEvent) : (s.offer e).x = s.x := rfl
@[simp] theorem State.offer_out (s : State) (e : HostEvent) : (s.offer e).out = s.out := rfl
@[simp] theorem State.offer_fault (s : State) (e : HostEvent) : (s.offer e).fault = s.fault := rfl
@[simp] theorem State.offer_fword (s : State) (e : HostEvent) : (s.offer e).fword = s.fword := rfl
@[simp] theorem State.offer_pending (s : State) (e : HostEvent) : (s.offer e).pending = e :: s.pending := rfl
@[simp] theorem State.offer_taken (s : State) (e : HostEvent) : (s.offer e).taken = s.taken := rfl
@[simp] theorem State.offer_received (s : State) (e : HostEvent) : (s.offer e).received = s.received := rfl

@[simp] theorem State.reset_x : State.reset.x = Vector.replicate 8 0#32 := rfl
@[simp] theorem State.reset_out : State.reset.out = [] := rfl
@[simp] theorem State.reset_fault : State.reset.fault = false := rfl
@[simp] theorem State.reset_fword : State.reset.fword = 0#32 := rfl
@[simp] theorem State.reset_pending : State.reset.pending = [] := rfl
@[simp] theorem State.reset_taken : State.reset.taken = 0 := rfl
@[simp] theorem State.reset_received : State.reset.received = [] := rfl

/-- A register read returns the value last written to it (R40). -/
@[simp] theorem State.readReg_writeReg_same (s : State) (r : RegNum) (v : Word) : (s.writeReg r v).readReg r = v := by
  simp [State.readReg]

/-- A write leaves every other register alone (R12). -/
@[simp] theorem State.readReg_writeReg_other (s : State) (r k : RegNum) (v : Word) (h : k ≠ r) :
    (s.writeReg r v).readReg k = s.readReg k := by
  have h' : (r : Nat) ≠ (k : Nat) := fun e => h (Fin.ext e.symm)
  simp [State.readReg, h']

/-- Every register reads 0 at reset (R23). -/
@[simp] theorem State.readReg_reset (r : RegNum) : State.reset.readReg r = 0#32 := by
  simp [State.readReg]

@[simp] theorem State.readReg_hostReset (s : State) (r : RegNum) : s.hostReset.readReg r = 0#32 := by
  simp [State.readReg]

@[simp] theorem State.readReg_appendOut (s : State) (w : Word) (r : RegNum) : (s.appendOut w).readReg r = s.readReg r := rfl

@[simp] theorem State.readReg_raiseIllegal (s : State) (w : Word) (r : RegNum) :
    (s.raiseIllegal w).readReg r = s.readReg r := rfl

@[simp] theorem State.readReg_offer (s : State) (e : HostEvent) (r : RegNum) : (s.offer e).readReg r = s.readReg r := rfl

/-- Two states with equal reads of every register have equal register files. -/
theorem State.x_ext (s t : State) (h : ∀ k : RegNum, t.readReg k = s.readReg k) : t.x = s.x := by
  apply Vector.ext
  intro i hi
  exact h ⟨i, hi⟩

/-- What writing a register does, as a frame (R12). -/
theorem State.sameButReg_writeReg (s : State) (rd : RegNum) (v : Word) : s.sameButReg (s.writeReg rd v) rd :=
  ⟨fun k hk => by simp [hk], rfl, rfl, rfl, rfl, rfl, rfl⟩

end Sys2Proof.Machine
end

