-- ==== Sys2Proof/Laws/Operands.lean ====
section
/-! SUPPORT. The register views and the notation of R6: ranges, and what is read back from what was packed. -/

namespace Sys2Proof.Machine

/-- A channel is an integer 0..255 (R11). -/
theorem chanOf_le (w : Word) : chanOf w ≤ 255 := by
  have := (w.extractLsb' 0 8).isLt
  unfold chanOf; omega

/-- A channel operand is an integer 0..255 (R60). -/
theorem State.ch_le (s : State) (r : RegNum) : s.ch r ≤ 255 := chanOf_le _

/-- A channel is the word modulo 256 (R11). -/
theorem chanOf_eq_mod (w : Word) : chanOf w = w.toNat % 256 := by
  simp [chanOf, BitVec.extractLsb'_toNat]

/-- A lane is an integer 0..255 (R6). -/
theorem lane_le (w : Word) (k : Nat) : lane w k ≤ 255 := by
  have := (w.extractLsb' (8 * k) 8).isLt
  unfold lane; omega

/-- A lane as a quotient and a remainder (R6). -/
theorem lane_eq (w : Word) (k : Nat) : lane w k = w.toNat / 2 ^ (8 * k) % 256 := by
  simp [lane, BitVec.extractLsb'_toNat, Nat.shiftRight_eq_div_pow]

/-- A value below 2^32 survives `zext32` (R6). -/
theorem toNat_zext32 (v : Nat) (h : v < 2 ^ 32) : (zext32 v).toNat = v := by
  simpa [zext32] using h

/-- A channel written zero-extended is read back by the channel view (R12). -/
theorem chanOf_zext32 (v : Nat) (h : v ≤ 255) : chanOf (zext32 v) = v := by
  rw [chanOf_eq_mod, toNat_zext32 v (by omega)]; omega

/-- The number of a packed word. -/
theorem toNat_pack (a b c d : Nat) (ha : a ≤ 255) (hb : b ≤ 255) (hc : c ≤ 255) (hd : d ≤ 255) :
    (pack a b c d).toNat = a * 2 ^ 24 + b * 2 ^ 16 + c * 2 ^ 8 + d := by
  simp only [pack, BitVec.toNat_ofNat]; omega

/-- Each lane of a packed word is what was packed there (R69). -/
theorem lane_pack (a b c d : Nat) (ha : a ≤ 255) (hb : b ≤ 255) (hc : c ≤ 255) (hd : d ≤ 255) :
    lane (pack a b c d) 3 = a ∧ lane (pack a b c d) 2 = b ∧ lane (pack a b c d) 1 = c ∧ lane (pack a b c d) 0 = d := by
  simp only [lane_eq, toNat_pack a b c d ha hb hc hd]; omega

/-- Packing the four lanes of a word gives the word. -/
theorem pack_lanes (w : Word) : pack (lane w 3) (lane w 2) (lane w 1) (lane w 0) = w := by
  apply BitVec.eq_of_toNat_eq
  rw [toNat_pack _ _ _ _ (lane_le w 3) (lane_le w 2) (lane_le w 1) (lane_le w 0)]
  simp only [lane_eq]
  have := w.isLt
  omega

/-- `trunc8` is in 0..255 and leaves a value in that range alone (R6). -/
theorem trunc8_of_range (v : Nat) (h : v ≤ 255) : trunc8 (v : Int) = v := by
  unfold trunc8; omega

end Sys2Proof.Machine
end

