-- ==== Sys2Proof/Laws/Ops.lean ====
section
/-! SUPPORT. For each shared operation, once, everything it can do. -/

namespace Sys2Proof.Machine

/-- A word leaves the output port, or the port is empty and nothing changes. -/
theorem State.takeOutput_cases (s : State) :
    (∃ w, s.out[s.taken]? = some w ∧
      s.takeOutput = { s with taken := s.taken + 1, received := s.received ++ [w] }) ∨
    (s.out[s.taken]? = none ∧ s.takeOutput = s) := by
  unfold State.takeOutput State.outWord
  cases h : s.out[s.taken]? with
  | some w => exact .inl ⟨w, rfl, rfl⟩
  | none => exact .inr ⟨rfl, rfl⟩

/-- The output port never touches the block's own state. -/
theorem State.sameBlock_takeOutput (s : State) : s.sameBlock s.takeOutput := by
  obtain ⟨w, -, h⟩ | ⟨-, h⟩ := s.takeOutput_cases <;> rw [h] <;> exact ⟨rfl, rfl, rfl, rfl⟩

/-- The first pending event is the next one. -/
theorem State.nextEvent_cons (s : State) (e : HostEvent) (rest : List HostEvent) (h : s.pending = e :: rest) :
    s.nextEvent = some (e, { s with pending := rest }) := by
  simp [State.nextEvent, h]

/-- With nothing pending there is no next event. -/
theorem State.nextEvent_nil (s : State) (h : s.pending = []) : s.nextEvent = none := by
  simp [State.nextEvent, h]

/-- Every command answers a next state, and it either writes its one destination register or appends one register to the
output stream. -/
theorem exec_cases (i : Instr) (s : State) :
    (∃ rd v, destOf i = some rd ∧ exec i s = .next (s.writeReg rd v)) ∨
    (∃ ra, i = .out ra ∧ exec i s = .next (s.appendOut (s.readReg ra))) := by
  cases i with
  | out ra => exact .inr ⟨ra, rfl, rfl⟩
  | _ => exact .inl ⟨_, _, rfl, rfl⟩

/-- The step for a delivered word: discarded, or the exception, or the decoded command. -/
theorem deliver_cases (w : Word) (s : State) :
    (s.fault = true ∧ deliver w s = .next s) ∨
    (s.fault = false ∧ ∃ e, decode w = .error e ∧ deliver w s = .next (s.raiseIllegal w)) ∨
    (s.fault = false ∧ ∃ i, decode w = .ok i ∧ deliver w s = exec i s) := by
  unfold deliver
  cases hf : s.fault with
  | true => exact .inl ⟨rfl, by simp⟩
  | false =>
    cases hd : decode w with
    | error e => exact .inr (.inl ⟨rfl, e, rfl, by simp⟩)
    | ok i => exact .inr (.inr ⟨rfl, i, rfl, by simp⟩)

/-- The step of a state whose next event is known. -/
theorem step_cons (s : State) (e : HostEvent) (rest : List HostEvent) (h : s.pending = e :: rest) :
    step s = act e { s with pending := rest } := by
  simp [step, hostStep, s.nextEvent_cons e rest h]

/-- The step of an idle state. -/
theorem step_nil (s : State) (h : s.pending = []) : step s = .next s := by
  simp [step, hostStep, s.nextEvent_nil h]

/-- Everything a step can do, by the next event of the host. -/
theorem step_cases (s : State) :
    (s.pending = [] ∧ step s = .next s) ∨
    (∃ w rest, s.pending = .deliver w :: rest ∧ step s = deliver w { s with pending := rest }) ∨
    (∃ o rest, s.pending = .reset o :: rest ∧ step s = .next (State.hostReset { s with pending := rest })) ∨
    (∃ rest, s.pending = .takeOut :: rest ∧ step s = .next (State.takeOutput { s with pending := rest })) := by
  cases h : s.pending with
  | nil => exact .inl ⟨rfl, step_nil s h⟩
  | cons e rest =>
    have hs := step_cons s e rest h
    cases e with
    | deliver w => exact .inr (.inl ⟨w, rest, rfl, hs⟩)
    | reset o => exact .inr (.inr (.inl ⟨o, rest, rfl, hs⟩))
    | takeOut => exact .inr (.inr (.inr ⟨rest, rfl, hs⟩))

end Sys2Proof.Machine
end

