-- ==== Sys2Proof/Laws/PerInstr.lean ====
section
/-! SUPPORT. Statements about every instruction as syntax, one lemma per constructor. -/

namespace Sys2Proof.Laws.EncodesToItsRow

/-- The word of an instruction carries its row's operation code in bits 31..24 and satisfies its row's match and mask
(R49, R50): it is a legal word of that row. -/
def Statement (i : Instr) : Prop :=
  opOf (encode i) = (opcodeOf i).code ∧ encode i &&& (opcodeOf i).mask = (opcodeOf i).pattern

theorem mul (rd ra rb : RegNum) : Statement (.mul rd ra rb) :=
  ⟨opOf_formatR .., (legal_rc_iff _ _).2 (by simp [encode]; rfl)⟩

theorem divmul (rd ra rb : RegNum) : Statement (.divmul rd ra rb) :=
  ⟨opOf_formatR .., (legal_rc_iff _ _).2 (by simp [encode]; rfl)⟩

theorem lerp (rd ra rb rc : RegNum) : Statement (.lerp rd ra rb rc) :=
  ⟨opOf_formatR .., (legal_z12_iff _ _).2 (by simp [encode]; rfl)⟩

theorem prelerp (rd ra rb rc : RegNum) : Statement (.prelerp rd ra rb rc) :=
  ⟨opOf_formatR .., (legal_z12_iff _ _).2 (by simp [encode]; rfl)⟩

theorem lerp4 (rd ra rb rc : RegNum) : Statement (.lerp4 rd ra rb rc) :=
  ⟨opOf_formatR .., (legal_z12_iff _ _).2 (by simp [encode]; rfl)⟩

theorem s2l (rd ra : RegNum) : Statement (.s2l rd ra) :=
  ⟨opOf_formatR .., (legal_rb_iff _ _).2 (by simp [encode]; rfl)⟩

theorem l2s (rd ra : RegNum) : Statement (.l2s rd ra) :=
  ⟨opOf_formatR .., (legal_rb_iff _ _).2 (by simp [encode]; rfl)⟩

theorem qnt (rd ra : RegNum) : Statement (.qnt rd ra) :=
  ⟨opOf_formatR .., (legal_rb_iff _ _).2 (by simp [encode]; rfl)⟩

theorem ldi (rd : RegNum) (imm : Imm16) : Statement (.ldi rd imm) :=
  ⟨opOf_formatI .., (legal_z5_iff _ _).2 (by simp [encode]; rfl)⟩

theorem ldih (rd : RegNum) (imm : Imm16) : Statement (.ldih rd imm) :=
  ⟨opOf_formatI .., (legal_z5_iff _ _).2 (by simp [encode]; rfl)⟩

theorem out (ra : RegNum) : Statement (.out ra) :=
  ⟨opOf_formatR .., (legal_rd_iff _ _).2 (by simp [encode]; rfl)⟩

end Sys2Proof.Laws.EncodesToItsRow
end

