-- ==== Sys2Proof/Laws/Run.lean ====
section
/-! SUPPORT. A run of the machine behind the host's interface, one step at a time. -/

namespace Sys2Proof.Machine

/-- A run whose first step answers a next state goes on from it, for any machine. -/
theorem run_succ_of_next (M : Host.Core) (n : Nat) (s t : M.State) (h : M.step s = .next t) :
    M.run (n + 1) s = M.run n t := by
  simp [Host.Core.run, h]

/-- The same for this machine. -/
theorem core_run_succ (n : Nat) (s t : State) (h : step s = .next t) : core.run (n + 1) s = core.run n t :=
  run_succ_of_next core n s t h

end Sys2Proof.Machine
end

