-- ==== Sys2Proof/Tests/Slice0.lean ====
section
/-! SUPPORT. Tests: the spec's own vectors (95_test_vectors.md, the worked examples of the rules) on single steps, the smoke
test of well-formedness, and for every statement with hypotheses a concrete case that meets them. -/

namespace Sys2Proof.Tests

open Sys2Proof Sys2Proof.Machine

/-! ## Helpers -/

/-- The reset state with three registers set. -/
def regs (x0 x1 x2 : Word) : State := { State.reset with x := #v[x0, x1, x2, 0#32, 0#32, 0#32, 0#32, 0#32] }

/-- One register of the next state. -/
def regAfter (o : Host.Outcome State Fault Refusal) (r : RegNum) : Option Word :=
  match o with
  | .next s => some (s.readReg r)
  | .fault _ => none
  | .refused _ => none

/-- The block's `OUT`, `FAULT` and `FWORD` in the next state. -/
def latchAfter (o : Host.Outcome State Fault Refusal) : Option (List Word × Bool × Word) :=
  match o with
  | .next s => some (s.out, s.fault, s.fword)
  | .fault _ => none
  | .refused _ => none

/-- The reset state after the exception of 95_test_vectors.md program P4. -/
def faulted : State := State.reset.raiseIllegal 0x10001000#32

/-! ## Well-formedness: one ill-formed line for each check (R54) -/

theorem test_wf_ok : (AsmLine.lerp 7 0 3 2).wellFormed = true ∧ (AsmLine.ldi 0 65535).wellFormed = true := by decide
theorem test_wf_first_register : (AsmLine.mul 8 0 0).wellFormed = false := by decide
theorem test_wf_second_register : (AsmLine.divmul 0 8 0).wellFormed = false := by decide
theorem test_wf_third_register : (AsmLine.prelerp 0 0 9 0).wellFormed = false := by decide
theorem test_wf_fourth_register : (AsmLine.lerp4 0 0 0 8).wellFormed = false := by decide
theorem test_wf_imm16 : (AsmLine.ldih 0 65536).wellFormed = false := by decide
theorem test_wf_imm32 : (AsmLine.li 0 4294967296).wellFormed = false := by decide
theorem test_wf_word : (AsmLine.word 4294967296).wellFormed = false := by decide

/-! ## Decoding: words written out bit by bit from R50 (95_test_vectors.md 2.1) -/

theorem test_decode_mul : decode 0b00010000011010001000000000000000#32 = .ok (.mul 3 2 1) := by decide
theorem test_decode_divmul : decode 0b00010001010000001000000000000000#32 = .ok (.divmul 2 0 1) := by decide
theorem test_decode_lerp : decode 0b00010010011000001010000000000000#32 = .ok (.lerp 3 0 1 2) := by decide
theorem test_decode_prelerp : decode 0b00010011111101110010000000000000#32 = .ok (.prelerp 7 5 6 2) := by decide
theorem test_decode_lerp4 : decode 0b00011000011000001010000000000000#32 = .ok (.lerp4 3 0 1 2) := by decide
theorem test_decode_s2l : decode 0b00100000011001000000000000000000#32 = .ok (.s2l 3 1) := by decide
theorem test_decode_l2s : decode 0b00100001010000000000000000000000#32 = .ok (.l2s 2 0) := by decide
theorem test_decode_qnt : decode 0b00101000001000000000000000000000#32 = .ok (.qnt 1 0) := by decide
theorem test_decode_ldi : decode 0b00110000111000001111111111111111#32 = .ok (.ldi 7 0xFFFF#16) := by decide
theorem test_decode_ldih : decode 0b00110001000000000011111100000000#32 = .ok (.ldih 0 0x3F00#16) := by decide
theorem test_decode_out : decode 0b00111000000111000000000000000000#32 = .ok (.out 7) := by decide
theorem test_decode_lerp4_all7 : decode 0x18FFF000#32 = .ok (.lerp4 7 7 7 7) := by decide

/-- The illegal words of 95_test_vectors.md 2.1. -/
def illegalWords : List Word :=
  [0x00000000#32, 0xFFFFFFFF#32, 0x10001000#32, 0x10000001#32, 0x38200000#32, 0x38008000#32, 0x20641000#32,
   0x20648000#32, 0x28200800#32, 0x30010064#32, 0x31100000#32, 0x1460A000#32, 0x19000000#32, 0x22400000#32,
   0x32000000#32, 0x39000000#32, 0x0F000000#32, 0x1860A001#32, 0x12000FFF#32]

theorem test_decode_illegal :
    illegalWords.all (fun w => match decode w with | .error _ => true | .ok _ => false) = true := by decide

theorem test_encode_words :
    encode (.prelerp 7 5 6 2) = 0x13F72000#32 ∧ encode (.ldih 0 0x3F00#16) = 0x31003F00#32 ∧
    encode (.out 2) = 0x38080000#32 := by decide

theorem test_table_word : decodeTableWord 32 0x10688000 = some (.mul 3 2 1) := by decide
theorem test_fetch_runs_first : step (State.reset.withFetchWord 32 0x10688000) = exec (.mul 3 2 1) State.reset := rfl
theorem test_fetch_runs_l2s : step (State.reset.withFetchWord 32 0x21400000) = exec (.l2s 2 0) State.reset := rfl

/-! ## Blend commands (95_test_vectors.md 2.2 to 2.6) -/

theorem test_mul_upper_bits : regAfter (exec (.mul 3 0 1) (regs 0xFFFFFF80#32 0x1C8#32 0#32)) 3 = some 0x64#32 := by decide
theorem test_mul_square : regAfter (exec (.mul 1 1 1) (regs 0#32 0x80#32 0#32)) 1 = some 0x40#32 := by decide
theorem test_divmul_round_up : regAfter (exec (.divmul 2 0 1) (regs 1#32 2#32 0#32)) 2 = some 128#32 := by decide
theorem test_divmul_cases :
    [dividMultiply 0 0, dividMultiply 5 0, dividMultiply 5 5, dividMultiply 200 100, dividMultiply 254 255,
      dividMultiply 1 255] = [0, 0, 255, 255, 254, 1] := by decide
theorem test_lerp_down : regAfter (exec (.lerp 3 0 1 2) (regs 200#32 100#32 64#32)) 3 = some 175#32 := by decide
theorem test_lerp_bias :
    [lerp 0 255 128, lerp 255 0 128, lerp 255 0 1, lerp 0 255 254, lerp 1 0 127, lerp 1 0 128, lerp 20 10 128,
      lerp 255 0 255] = [128, 127, 254, 254, 1, 0, 15, 0] := by decide
theorem test_prelerp_wraps : regAfter (exec (.prelerp 0 0 1 2) (regs 255#32 255#32 0#32)) 0 = some 254#32 := by decide
theorem test_prelerp_values : [prelerp 200 100 128, prelerp 100 50 50, prelerp 10 255 255, prelerp 255 1 0] =
    [200, 130, 255, 0] := by decide
theorem test_lerp4_lanes :
    regAfter (exec (.lerp4 3 0 1 2) (regs 0xFF804000#32 0x00FF80FF#32 0x80#32)) 3 = some 0x7FC06080#32 := by decide
theorem test_lerp4_weight_low_byte :
    regAfter (exec (.lerp4 0 0 1 2) (regs 0x11223344#32 0xAABBCCDD#32 0x1FF#32)) 0 = some 0xAABBCCDD#32 := by decide

/-! ## Gamma commands, reference tables (95_test_vectors.md 2.7, 2.8, 2.12) -/

theorem test_s2l_reference : s2lValue gammaRef 128 = 0x3E5D0A89#32 ∧ s2lValue gammaRef 255 = 0x3F800000#32 := by
  decide +kernel
theorem test_reference_checksums :
    (gammaDirRef.map BitVec.toNat).sum % 2 ^ 32 = 3356308979 ∧
    (gammaInvRef.map BitVec.toNat).sum % 2 ^ 32 = 3300477331 := by decide +kernel
theorem test_l2s_half : exceeds gammaRef 0x3F000000#32 188 = true ∧ exceeds gammaRef 0x3F000000#32 189 = false := by
  decide +kernel
theorem test_l2s_search_half : l2sSearch gammaRef 0x3F000000#32 = 188 := by decide +kernel
theorem test_l2s_count_reference :
    l2sCode gammaRef 0x3E5B2D9A#32 = 127 ∧ l2sCode gammaRef 0x3E5B2D9B#32 = 128 := by decide +kernel

/-! ## The quantizer (95_test_vectors.md 2.9) -/

theorem test_qnt_half : regAfter (exec (.qnt 1 0) (regs 0x3F000000#32 0#32 0#32)) 1 = some 0x80#32 := by decide
theorem test_qnt_vectors :
    [0x80000000#32, 0x3F800000#32, 0x7F800000#32, 0xFF800000#32, 0x7F800001#32, 0x40000000#32, 0x00000001#32,
      0x3B008080#32, 0x3B008081#32, 0x3F7F7F7F#32, 0x3F7F7F80#32, 0x3EFFFFFF#32, 0x3F010101#32, 0x3F010102#32,
      0x3E800000#32, 0x3F400000#32, 0x3DCCCCCD#32, 0x3E5D0A89#32].map quantize =
    [0, 255, 255, 0, 0, 255, 0, 0, 1, 254, 255, 127, 128, 129, 64, 191, 26, 55] := by decide

/-! ## Data movement (95_test_vectors.md 2.10) -/

theorem test_ldi_clears : regAfter (exec (.ldi 0 1#16) (regs 0x3F00BEEF#32 0#32 0#32)) 0 = some 1#32 := by decide
theorem test_ldih_keeps : regAfter (exec (.ldih 0 0x3F00#16) (regs 0xDEADBEEF#32 0#32 0#32)) 0 = some 0x3F00BEEF#32 := by
  decide
theorem test_out_appends :
    latchAfter (exec (.out 2) ((regs 0#32 0#32 0x80#32).appendOut 0x80#32)) = some ([0x80#32, 0x80#32], false, 0#32) := by
  decide

/-! ## The exception, reset, the ports (95_test_vectors.md 2.11) -/

theorem test_illegal_latches :
    latchAfter (step (State.reset.withFetchWord 32 0x10001000)) = some ([], true, 0x10001000#32) := by decide
theorem test_zero_word_latches :
    latchAfter (step (State.reset.withFetchWord 32 0)) = some ([], true, 0#32) := by decide
theorem test_faulted_discards_ldi : regAfter (step (faulted.withFetchWord 32 0x30000009)) 0 = some 0#32 := by decide
theorem test_faulted_keeps_fword :
    latchAfter (step (faulted.withFetchWord 32 0xFFFFFFFF)) = some ([], true, 0x10001000#32) := by decide
theorem test_reset_clears_fault :
    latchAfter (step (faulted.offer (.reset (some 0x30000009#32)))) = some ([], false, 0#32) := by decide
theorem test_take_presents_in_order :
    ((State.reset.appendOut 1#32).appendOut 2#32).takeOutput.outWord = some 2#32 := by decide

/-! ## The assembler (R54, R55; words of 95_test_vectors.md P1, P2) -/

theorem test_assemble_text :
    assembleSource ["LDI r1, 200 ; 0xC8".toList, "DIVMUL r2, r0, r1".toList, "; only a comment".toList, "OUT r2".toList]
      = some [0x302000C8#32, 0x11408000#32, 0x38080000#32] := by decide
theorem test_assemble_pseudo :
    assembleSource ["LI r0, 0xFF204060".toList, "GRADIENT r3, r1, r2".toList, "MOV r4, r3".toList,
        "SCALECOVER r6, r5, r2".toList, ".word 0x10001000".toList]
      = some [0x30004060#32, 0x3100FF20#32, 0x186CA000#32, 0x188DB000#32, 0x10D50000#32, 0x10001000#32] := by decide
theorem test_assemble_rejects : assembleSource ["MUL r8, r0, r0".toList] = none ∧
    assembleSource ["LDI r0, 65536".toList] = none ∧ parseLine "HALT r0".toList = none := by decide
/-- R10 and R54 give the names `r0` to `r7` and eight digits after `.word`, and no other form. -/
theorem test_assemble_no_other_names : parseLine "OUT r07".toList = none ∧ parseLine "OUT r".toList = none ∧
    parseLine ".word 5".toList = none ∧ parseLine ".word 0x5".toList = none := by decide
theorem test_digit_values : ['0', '9', 'A', 'F', 'a', 'f', 'G'].map hexDigit =
    [some 0, some 9, some 10, some 15, some 10, some 15, none] ∧ decDigit 'A' = none := by decide

/-! ## Witnesses: each statement's hypotheses are met by a concrete case -/

theorem witness_ResetEventWins : (faulted.offer (.reset (some 0x38000000#32))).pending = [.reset (some 0x38000000#32)] := rfl

theorem witness_StepKeepsInvariant :
    ∃ s t : State, s.inv ∧ step s = .next t ∧ s.pending = [.takeOut] ∧ s.out = [7#32] :=
  ⟨(State.reset.appendOut 7#32).offer .takeOut, _, ⟨fun _ => rfl, by decide, [], rfl⟩, rfl, rfl, rfl⟩

/-- Each clause of the two latch statements: the latch closes, stays closed, is opened by reset, stays open. -/
theorem witness_latch_clauses :
    (∃ s t : State, step s = .next t ∧ s.fault = false ∧ t.fault = true) ∧
    (∃ s t : State, step s = .next t ∧ s.fault = true ∧ ¬ s.resetNext ∧ t.fault = true) ∧
    (∃ s t : State, step s = .next t ∧ s.fault = true ∧ s.resetNext ∧ t.fault = false) ∧
    (∃ s t : State, step s = .next t ∧ s.latchInv ∧ s.fault = false ∧ t.fault = false) :=
  ⟨⟨State.reset.offer (.deliver 0x10001000#32), _, rfl, rfl, rfl⟩,
   ⟨faulted.offer (.deliver 0x38000000#32), _, rfl, rfl, (by rintro ⟨o, r, h⟩; cases h), rfl⟩,
   ⟨faulted.offer (.reset none), _, rfl, rfl, ⟨none, [], rfl⟩, rfl⟩,
   ⟨State.reset.offer (.deliver 0x38000000#32), _, rfl, fun _ => rfl, rfl, rfl⟩⟩

theorem witness_OutIsAppendOnly :
    (∃ s t : State, step s = .next t ∧ ¬ s.resetNext ∧ t.out = s.out ++ [0#32]) ∧
    (∃ s t : State, step s = .next t ∧ s.resetNext ∧ s.out = [5#32] ∧ t.out = []) :=
  ⟨⟨State.reset.offer (.deliver 0x38080000#32), _, rfl, (by rintro ⟨o, r, h⟩; cases h), rfl⟩,
   ⟨(State.reset.appendOut 5#32).offer (.reset none), _, rfl, ⟨none, [], rfl⟩, rfl, rfl⟩⟩

theorem witness_UnwrittenRegisterKeepsItsValue :
    ∀ w ∈ [0x30000064#32, 0x00000000#32, 0x38080000#32], ∀ i, decode w = .ok i → destOf i ≠ some 3 := by
  intro w hw i h
  simp only [List.mem_cons, List.not_mem_nil, or_false] at hw
  obtain rfl | rfl | rfl := hw
  · rw [show decode 0x30000064#32 = .ok (.ldi 0 100#16) by decide] at h; cases h; decide
  · rw [show decode 0x00000000#32 = .error (.unassignedOpcode 0#8) by decide] at h; cases h
  · rw [show decode 0x38080000#32 = .ok (.out 2) by decide] at h; cases h; decide

theorem witness_OnlyTheDestinationChanges :
    destOf (.mul 3 2 1) ≠ some 0 ∧ destOf (.mul 3 2 1) ≠ none ∧ destOf (.out 2) ≠ some 2 := by decide

theorem witness_NoHiddenState :
    ∃ s s' : State, s.sameBlock s' ∧ s.pending ≠ s'.pending ∧ s.received ≠ s'.received :=
  ⟨State.reset, { State.reset with pending := [.takeOut], received := [1#32] }, ⟨rfl, rfl, rfl, rfl⟩, by decide, by decide⟩

theorem witness_EncodeInvertsDecode : decode 0x38080000#32 = .ok (.out 2) := by decide

/-- One word for each row of the opcode map. -/
theorem witness_RowsOfTheOpcodeMap :
    0x10688000#32 &&& 0xFF007FFF#32 = 0x10000000#32 ∧ 0x11408000#32 &&& 0xFF007FFF#32 = 0x11000000#32 ∧
    0x1260A000#32 &&& 0xFF000FFF#32 = 0x12000000#32 ∧ 0x13F72000#32 &&& 0xFF000FFF#32 = 0x13000000#32 ∧
    0x18FFF000#32 &&& 0xFF000FFF#32 = 0x18000000#32 ∧ 0x20640000#32 &&& 0xFF03FFFF#32 = 0x20000000#32 ∧
    0x21400000#32 &&& 0xFF03FFFF#32 = 0x21000000#32 ∧ 0x28200000#32 &&& 0xFF03FFFF#32 = 0x28000000#32 ∧
    0x30E0FFFF#32 &&& 0xFF1F0000#32 = 0x30000000#32 ∧ 0x31003F00#32 &&& 0xFF1F0000#32 = 0x31000000#32 ∧
    0x381C0000#32 &&& 0xFFE3FFFF#32 = 0x38000000#32 := by decide

theorem witness_StepRunsTheDecodedInstruction :
    ∃ (s : State) (w : Word) (rest : List HostEvent) (i : Instr), s.pending = .deliver w :: rest ∧ s.fault = false ∧ decode w = .ok i :=
  ⟨State.reset.offer (.deliver 0x38080000#32), _, [], .out 2, rfl, rfl, by decide⟩

/-- Both outcomes of `IllegalCommandExactly`, and each of its clauses at one illegal word of that clause. -/
theorem witness_IllegalCommandExactly :
    (∃ (s : State) (w : Word) (rest : List HostEvent), s.pending = .deliver w :: rest ∧ s.fault = false ∧ decode w = .ok (.out 2)) ∧
    opOf 0x39000000#32 = 0x39#8 ∧ (opOf 0x10000001#32 = 0x10#8 ∧ 0x10000001#32 &&& 0x7FFF#32 ≠ 0#32) ∧
    (opOf 0x1860A001#32 = 0x18#8 ∧ 0x1860A001#32 &&& 0xFFF#32 ≠ 0#32) ∧
    (opOf 0x20648000#32 = 0x20#8 ∧ 0x20648000#32 &&& 0x3FFFF#32 ≠ 0#32) ∧
    (opOf 0x31100000#32 = 0x31#8 ∧ 0x31100000#32 &&& 0x1F0000#32 ≠ 0#32) ∧
    (opOf 0x38200000#32 = 0x38#8 ∧ 0x38200000#32 &&& 0xE3FFFF#32 ≠ 0#32) :=
  ⟨⟨State.reset.offer (.deliver 0x38080000#32), _, [], rfl, rfl, by decide⟩, by decide⟩

theorem witness_ExceptionEntry :
    (∃ (s : State) (w : Word) (rest : List HostEvent) (e : IllegalReason), s.pending = .deliver w :: rest ∧ s.fault = false ∧ decode w = .error e) ∧
    (∃ u : State, deliverAll [0x30000007#32, 0x38000000#32] State.reset = .next u ∧ u.fault = false ∧
      decode 0x10001000#32 = .error (.nonzeroMustBeZero .mul)) :=
  ⟨⟨State.reset.offer (.deliver 0x10001000#32), _, [], .nonzeroMustBeZero .mul, rfl, rfl, by decide⟩,
   ⟨_, rfl, rfl, by decide⟩⟩

theorem witness_FaultedBlockDiscards :
    (faulted.offer (.deliver 0x38000000#32)).fault = true ∧
    (faulted.offer (.deliver 0x38000000#32)).pending = [.deliver 0x38000000#32] := ⟨rfl, rfl⟩

theorem witness_IdleStepChangesNothing : State.reset.pending = [] := rfl

/-- Both clauses: a word is waiting, and none is. -/
theorem witness_OutputPortPresentsEachWordOnce :
    (∃ s : State, s.pending = [.takeOut] ∧ s.out[s.taken]? = some 7#32) ∧
    (∃ s : State, s.pending = [.takeOut] ∧ s.out.length ≤ s.taken) :=
  ⟨⟨(State.reset.appendOut 7#32).offer .takeOut, rfl, rfl⟩, ⟨State.reset.offer .takeOut, rfl, by decide⟩⟩

/-- The channel conditions of the blend statements, each met: 0, 255, equal, below, above, at the edge of 128. -/
theorem witness_blend_clauses :
    (regs 0#32 255#32 128#32).ch 0 = 0 ∧ (regs 0#32 255#32 128#32).ch 1 = 255 ∧ (regs 0#32 255#32 128#32).ch 2 = 128 ∧
    (regs 1#32 255#32 1#32).ch 0 = (regs 1#32 255#32 1#32).ch 2 ∧
    0 < (regs 1#32 2#32 0#32).ch 0 ∧ (regs 1#32 2#32 0#32).ch 0 < (regs 1#32 2#32 0#32).ch 1 ∧
    [multiply 1 127, multiply 1 128] = [0, 1] := by decide

/-- The four kinds of patterns that the `L2S` and `QNT` statements tell apart. -/
theorem witness_float_clauses :
    isNaN 0x7FC00000#32 = true ∧ fSign 0x80000000#32 = true ∧
    (isInf 0x7F800000#32 = true ∧ fSign 0x7F800000#32 = false) ∧
    (isFinite 0x3F800000#32 = true ∧ 1 ≤ fval 0x3F800000#32) ∧
    (isFinite 0x3F7FFFFF#32 = true ∧ fSign 0x3F7FFFFF#32 = false ∧ fval 0x3F7FFFFF#32 < 1) ∧
    (fExp 0x00000001#32 = 0 ∧ fSign 0x00000001#32 = false ∧ fval 0x00000001#32 < 1) := by
  simp only [← not_le, one_le_fval_iff]
  decide

theorem witness_BinarySearchEqualsCount : admissible gammaRef = true := gammaRef_admissible

theorem witness_InverseSamplingIsMonotone :
    isNaN 0x3F000000#32 = false ∧ isNaN 0x3F800000#32 = false ∧ fgt 0x3F000000#32 0x3F800000#32 = false := by decide

theorem witness_PseudoInstructions : 0xFF204060 < 2 ^ 32 ∧ State.reset.fault = false := by decide

end Sys2Proof.Tests
end

section
/-! SUPPORT. Reset, the fault latch, the output stream and the ports (10_state.md): first what a command and a delivered
word read and leave unchanged, then everything a step can do as one relation, then the statements about the state. -/

namespace Sys2Proof.Machine

/-! ## What a command reads and what it leaves unchanged -/

/-- A command reads nothing but the registers (R15, R22): from two states with equal registers it writes the same value
to the same destination, or appends the same word. -/
theorem exec_cases_of_sameRegs (i : Instr) (s s' : State) (h : s'.x = s.x) :
    (∃ rd v, destOf i = some rd ∧ exec i s = .next (s.writeReg rd v) ∧ exec i s' = .next (s'.writeReg rd v)) ∨
    (∃ w, exec i s = .next (s.appendOut w) ∧ exec i s' = .next (s'.appendOut w)) := by
  obtain ⟨x', out', fault', fword', pending', taken', received'⟩ := s'
  obtain rfl : x' = s.x := h
  cases i with
  | out ra => exact .inr ⟨s.readReg ra, rfl, rfl⟩
  | _ => exact .inl ⟨_, _, rfl, rfl, rfl⟩

/-- The frame of a command (R12, R15, R60). -/
theorem exec_frame (i : Instr) (s : State) : ∃ t, exec i s = .next t ∧
    (∀ k : RegNum, destOf i ≠ some k → t.readReg k = s.readReg k) ∧
    (destOf i ≠ none → t.out = s.out) ∧ t.fault = s.fault ∧ t.fword = s.fword ∧ s.samePorts t := by
  obtain ⟨rd, v, hdest, hexec⟩ | ⟨ra, rfl, hexec⟩ := exec_cases i s
  · obtain ⟨hreg, hout, hfault, hfword, hports⟩ := s.sameButReg_writeReg rd v
    exact ⟨_, hexec, fun k hk => hreg k fun hkrd => hk (hkrd ▸ hdest), fun _ => hout, hfault, hfword, hports⟩
  · exact ⟨_, hexec, fun _ _ => rfl, fun hdest => absurd rfl hdest, rfl, rfl, rfl, rfl, rfl⟩

/-- The same for a next state that is already known. -/
theorem latch_of_exec (i : Instr) (s t : State) (h : exec i s = .next t) : t.fault = s.fault ∧ t.fword = s.fword := by
  obtain ⟨u, hexec, -, -, hfault, hfword, -⟩ := exec_frame i s
  cases hexec.symm.trans h
  exact ⟨hfault, hfword⟩

/-- No command reads `FWORD` (R17). -/
theorem exec_with_fword (i : Instr) (s t : State) (v : Word) (h : exec i s = .next t) :
    exec i { s with fword := v } = .next { t with fword := v } := by
  obtain ⟨rd, u, -, hs, hs'⟩ | ⟨u, hs, hs'⟩ := exec_cases_of_sameRegs i s { s with fword := v } rfl <;>
  · cases hs.symm.trans h
    exact hs'

/-- No command reads the ports (R22). -/
theorem exec_with_pending (i : Instr) (s t : State) (p : List HostEvent) (h : exec i s = .next t) :
    exec i { s with pending := p } = .next { t with pending := p } := by
  obtain ⟨rd, u, -, hs, hs'⟩ | ⟨u, hs, hs'⟩ := exec_cases_of_sameRegs i s { s with pending := p } rfl <;>
  · cases hs.symm.trans h
    exact hs'

/-- No command reads the output stream (R18): what it appends, if anything, is the same for any other stream. -/
theorem exec_with_out (i : Instr) (s t : State) (o : List Word) (h : exec i s = .next t) :
    ∃ sent, t.out = s.out ++ sent ∧ exec i { s with out := o } = .next { t with out := o ++ sent } := by
  obtain ⟨rd, v, -, hs, hs'⟩ | ⟨w, hs, hs'⟩ := exec_cases_of_sameRegs i s { s with out := o } rfl <;>
    cases hs.symm.trans h
  · exact ⟨[], (List.append_nil _).symm, by rw [List.append_nil]; exact hs'⟩
  · exact ⟨[w], rfl, hs'⟩

/-- A command takes states that agree in the block's own state to states that agree in it (R22, R127). -/
theorem exec_sameBlock (i : Instr) (s s' : State) (h : s.sameBlock s') :
    ∃ t t', exec i s = .next t ∧ exec i s' = .next t' ∧ t.sameBlock t' := by
  obtain ⟨hx, hout, hfault, hfword⟩ := h
  obtain ⟨rd, v, -, hs, hs'⟩ | ⟨w, hs, hs'⟩ := exec_cases_of_sameRegs i s s' hx
  · exact ⟨_, _, hs, hs', by simp [hx], hout, hfault, hfword⟩
  · exact ⟨_, _, hs, hs', hx, by simp [hout], hfault, hfword⟩

/-! ## The step for a delivered word (R104) -/

/-- While `FAULT = 1` the word is discarded (R104). -/
theorem deliver_of_fault (w : Word) (s : State) (hf : s.fault = true) : deliver w s = .next s := by
  simp [deliver, hf]

/-- A word that does not decode raises the exception (R103). -/
theorem deliver_of_error (w : Word) (s : State) (e : IllegalReason) (hf : s.fault = false) (hd : decode w = .error e) :
    deliver w s = .next (s.raiseIllegal w) := by
  simp [deliver, hf, hd]

/-- A word that decodes is executed (R104). -/
theorem deliver_of_ok (w : Word) (s : State) (i : Instr) (hf : s.fault = false) (hd : decode w = .ok i) :
    deliver w s = exec i s := by
  simp [deliver, hf, hd]

/-- A delivered word that is no command with destination `r` leaves `x[r]` as it was. -/
theorem deliver_keeps_readReg (w : Word) (r : RegNum) (s : State) (h : ∀ i, decode w = .ok i → destOf i ≠ some r) :
    ∃ t, deliver w s = .next t ∧ t.readReg r = s.readReg r := by
  obtain ⟨-, hdel⟩ | ⟨-, e, -, hdel⟩ | ⟨-, i, hi, hdel⟩ := deliver_cases w s
  · exact ⟨s, hdel, rfl⟩
  · exact ⟨_, hdel, rfl⟩
  · obtain ⟨t, hexec, hreg, -⟩ := exec_frame i s
    exact ⟨t, hdel.trans hexec, hreg r (h i hi)⟩

/-- A delivered word acts on the block's own state only through that state (R22, R127). -/
theorem deliver_sameBlock (w : Word) (s s' : State) (h : s.sameBlock s') :
    ∃ t t', deliver w s = .next t ∧ deliver w s' = .next t' ∧ t.sameBlock t' := by
  have ⟨hx, hout, hfault, _⟩ := h
  cases hf : s.fault with
  | true => exact ⟨s, s', deliver_of_fault w s hf, deliver_of_fault w s' (hfault.trans hf), h⟩
  | false =>
    cases hd : decode w with
    | error e =>
      exact ⟨_, _, deliver_of_error w s e hf hd, deliver_of_error w s' e (hfault.trans hf) hd, hx, hout, rfl, rfl⟩
    | ok i =>
      rw [deliver_of_ok w s i hf hd, deliver_of_ok w s' i (hfault.trans hf) hd]
      exact exec_sameBlock i s s' h

/-- A delivered word answers a next state, which it makes in the same way whatever the host does later (log entry 2). -/
theorem deliver_with_pending (w : Word) (s : State) :
    ∃ t : State, ∀ p, deliver w { s with pending := p } = .next { t with pending := p } := by
  obtain ⟨hf, -⟩ | ⟨hf, e, hd, -⟩ | ⟨hf, i, hd, -⟩ := deliver_cases w s
  · exact ⟨s, fun p => deliver_of_fault w { s with pending := p } hf⟩
  · exact ⟨s.raiseIllegal w, fun p => deliver_of_error w { s with pending := p } e hf hd⟩
  · obtain ⟨t, hexec, -⟩ := exec_frame i s
    refine ⟨t, fun p => ?_⟩
    rw [deliver_of_ok w { s with pending := p } i hf hd]
    exact exec_with_pending i s t p hexec

/-- Delivering a list of words goes on from the first word's next state. -/
theorem deliverAll_cons_of_next (w : Word) (ws : List Word) (s t : State) (h : deliver w s = .next t) :
    deliverAll (w :: ws) s = deliverAll ws t := by
  simp [deliverAll, h]

/-! ## Everything a step can do -/

@[simp] theorem State.takeOutput_out (s : State) : s.takeOutput.out = s.out := s.sameBlock_takeOutput.2.1
@[simp] theorem State.takeOutput_fault (s : State) : s.takeOutput.fault = s.fault := s.sameBlock_takeOutput.2.2.1
@[simp] theorem State.takeOutput_fword (s : State) : s.takeOutput.fword = s.fword := s.sameBlock_takeOutput.2.2.2

/-- The next states of a step, one constructor for each thing that can happen: `step_cases`, `deliver_cases` and
`exec_cases` in one, tied to `step` by `stepTo_of_step`. -/
inductive StepTo (s : State) : State → Prop
  /-- No event: the block is idle (R115). -/
  | idle (hp : s.pending = []) : StepTo s s
  /-- A word delivered to the faulted block (R104). -/
  | discarded (w : Word) (rest : List HostEvent) (hp : s.pending = .deliver w :: rest) (hf : s.fault = true) :
    StepTo s { s with pending := rest }
  /-- The exception (R103). -/
  | illegal (w : Word) (rest : List HostEvent) (e : IllegalReason) (hp : s.pending = .deliver w :: rest)
    (hf : s.fault = false) (hd : decode w = .error e) : StepTo s (State.raiseIllegal { s with pending := rest } w)
  /-- A command with a destination register (R12). -/
  | wrote (w : Word) (rest : List HostEvent) (i : Instr) (rd : RegNum) (v : Word) (hp : s.pending = .deliver w :: rest)
    (hf : s.fault = false) (hd : decode w = .ok i) (hdest : destOf i = some rd) :
    StepTo s (State.writeReg { s with pending := rest } rd v)
  /-- `OUT` (R97). -/
  | sent (w : Word) (rest : List HostEvent) (ra : RegNum) (hp : s.pending = .deliver w :: rest)
    (hf : s.fault = false) (hd : decode w = .ok (.out ra)) :
    StepTo s (State.appendOut { s with pending := rest } (s.readReg ra))
  /-- Reset (R120). -/
  | wasReset (o : Option Word) (rest : List HostEvent) (hp : s.pending = .reset o :: rest) :
    StepTo s (State.hostReset { s with pending := rest })
  /-- The host is ready to take an output word (R125). -/
  | took (rest : List HostEvent) (hp : s.pending = .takeOut :: rest) :
    StepTo s (State.takeOutput { s with pending := rest })

/-- Every next state of a step is one of those of `StepTo`. -/
theorem stepTo_of_step (s t : State) (h : step s = .next t) : StepTo s t := by
  obtain ⟨hp, hs⟩ | ⟨w, rest, hp, hs⟩ | ⟨o, rest, hp, hs⟩ | ⟨rest, hp, hs⟩ := step_cases s <;> rw [hs] at h
  · cases h
    exact .idle hp
  · obtain ⟨hf, hdel⟩ | ⟨hf, e, hd, hdel⟩ | ⟨hf, i, hd, hdel⟩ := deliver_cases w { s with pending := rest } <;>
      rw [hdel] at h
    · cases h
      exact .discarded w rest hp hf
    · cases h
      exact .illegal w rest e hp hf hd
    · obtain ⟨rd, v, hdest, hexec⟩ | ⟨ra, rfl, hexec⟩ := exec_cases i { s with pending := rest } <;>
        cases hexec.symm.trans h
      · exact .wrote w rest i rd v hp hf hd hdest
      · exact .sent w rest ra hp hf hd
  · cases h
    exact .wasReset o rest hp
  · cases h
    exact .took rest hp

/-- When a reset is next, the step is the reset (R120). -/
theorem step_of_resetNext (s t : State) (hr : s.resetNext) (h : step s = .next t) :
    ∃ rest, t = State.hostReset { s with pending := rest } := by
  obtain ⟨o, rest, hp⟩ := hr
  exact ⟨rest, (Host.Outcome.next.inj ((step_cons s _ rest hp).symm.trans h)).symm⟩

/-! ## The fault latch (R16, R17) -/

/-- The next event of the host delivers the word `w`, which does not decode (R102). -/
def State.illegalNext (s : State) (w : Word) : Prop :=
  ∃ rest e, s.pending = .deliver w :: rest ∧ decode w = .error e

/-- What a step does to the latch: it keeps both parts, or takes the exception, or resets both. -/
theorem step_latch_cases (s t : State) (h : step s = .next t) :
    (¬ s.resetNext ∧ (s.fault = false → ¬ ∃ w, s.illegalNext w) ∧ t.fault = s.fault ∧ t.fword = s.fword) ∨
    (¬ s.resetNext ∧ s.fault = false ∧ ∃ w, s.illegalNext w ∧ t.fault = true ∧ t.fword = w) ∨
    (s.resetNext ∧ t.fault = false ∧ t.fword = 0#32) := by
  cases stepTo_of_step s t h with
  | idle hp => exact .inl (by simp [State.resetNext, State.illegalNext, hp])
  | discarded w rest hp hf => exact .inl (by simp [State.resetNext, hp, hf])
  | illegal w rest e hp hf hd => exact .inr (.inl ⟨by simp [State.resetNext, hp], hf, w, ⟨rest, e, hp, hd⟩, rfl, rfl⟩)
  | wrote w rest i rd v hp hf hd hdest => exact .inl (by simp [State.resetNext, State.illegalNext, hp, hd])
  | sent w rest ra hp hf hd => exact .inl (by simp [State.resetNext, State.illegalNext, hp, hd])
  | wasReset o rest hp => exact .inr (.inr ⟨⟨o, rest, hp⟩, rfl, rfl⟩)
  | took rest hp => exact .inl (by simp [State.resetNext, State.illegalNext, hp])

/-- Every step keeps `FWORD` at its reset value while `FAULT = 0` (R17). -/
theorem step_keeps_latchInv (s t : State) (hs : s.latchInv) (h : step s = .next t) : t.latchInv := by
  intro ht
  obtain ⟨-, -, hfault, hfword⟩ | ⟨-, -, w, -, hfault, -⟩ | ⟨-, -, hfword⟩ := step_latch_cases s t h
  · exact hfword.trans (hs (hfault.symm.trans ht))
  · cases hfault.symm.trans ht
  · exact hfword

/-! ## The output port (R21, R125) -/

/-- A word appended to the stream is behind everything that has left the port. -/
theorem State.portInv_appendOut (s : State) (w : Word) (hs : s.portInv) : (s.appendOut w).portInv := by
  obtain ⟨hle, earlier, hrec⟩ := hs
  refine ⟨?_, earlier, ?_⟩
  · simp only [appendOut_taken, appendOut_out, List.length_append]
    omega
  · simpa [List.take_append_of_le_length hle] using hrec

/-- A word that leaves the port is the next one of the stream. -/
theorem State.portInv_takeOutput (s : State) (hs : s.portInv) : s.takeOutput.portInv := by
  obtain ⟨w, hw, ht⟩ | ⟨-, ht⟩ := s.takeOutput_cases <;> rw [ht]
  · obtain ⟨-, earlier, hrec⟩ := hs
    obtain ⟨hlt, -⟩ := List.getElem?_eq_some_iff.1 hw
    exact ⟨hlt, earlier, by simp [hrec, List.take_add_one, hw]⟩
  · exact hs

/-- After a reset nothing has left the port, and what the host received before stays. -/
theorem State.portInv_hostReset (s : State) : s.hostReset.portInv := ⟨Nat.le_refl 0, s.received, by simp⟩

/-- Every step keeps the bookkeeping of the output port; only `OUT`, reset and the port itself touch it. -/
theorem step_keeps_portInv (s t : State) (hs : s.portInv) (h : step s = .next t) : t.portInv := by
  cases stepTo_of_step s t h with
  | idle _ => exact hs
  | discarded _ rest _ _ => exact hs
  | illegal w rest _ _ _ _ => exact hs
  | wrote _ rest _ rd v _ _ _ _ => exact hs
  | sent _ rest ra _ _ _ => exact State.portInv_appendOut { s with pending := rest } _ hs
  | wasReset _ rest _ => exact State.portInv_hostReset _
  | took rest _ => exact State.portInv_takeOutput { s with pending := rest } hs

/-! ## The statements -/

/-- Settles O4: the latch and the port each keep their half of the invariant. -/
theorem stepKeepsInvariant : Obligations.StepKeepsInvariant := fun s t ⟨hlatch, hport⟩ h =>
  ⟨step_keeps_latchInv s t hlatch h, step_keeps_portInv s t hport h⟩

/-- Settles O5, by what a step does to the latch. -/
theorem fwordIsWrittenOnce : Obligations.FwordIsWrittenOnce := by
  refine ⟨rfl, fun s t h => ?_, fun i s t v h => ⟨(latch_of_exec i s t h).2, exec_with_fword i s t v h⟩⟩
  refine ⟨?closes, ?stays, ?opens, fun hs => step_keeps_latchInv s t hs h⟩
  case closes =>
    intro hs ht
    obtain ⟨-, -, hfault, -⟩ | ⟨-, -, w, ⟨rest, e, hp, hd⟩, -, hfword⟩ | ⟨-, hfault, -⟩ := step_latch_cases s t h
    · cases hs.symm.trans (hfault.symm.trans ht)
    · exact ⟨w, rest, e, hp, hd, hfword⟩
    · cases hfault.symm.trans ht
  case stays =>
    intro hs hr
    obtain ⟨-, -, hfault, hfword⟩ | ⟨-, hs', -⟩ | ⟨hr', -⟩ := step_latch_cases s t h
    · exact ⟨hfault.trans hs, hfword⟩
    · cases hs.symm.trans hs'
    · exact absurd hr' hr
  case opens =>
    intro hr
    obtain ⟨rest, rfl⟩ := step_of_resetNext s t hr h
    exact ⟨rfl, rfl⟩

/-- Settles O6, by what a step does to the latch. -/
theorem faultIsSticky : Obligations.FaultIsSticky := by
  refine ⟨rfl, fun s t h => ⟨?closes, ?opens⟩, fun i s t h => (latch_of_exec i s t h).1, fun s w => deliver_of_fault w s⟩
  case closes =>
    intro hs
    change t.fault = true ↔ ∃ w, s.illegalNext w
    obtain ⟨-, hno, hfault, -⟩ | ⟨-, -, w, hw, hfault, -⟩ | ⟨⟨o, rest, hp⟩, hfault, -⟩ := step_latch_cases s t h
    · simp [hfault, hs, hno hs]
    · exact iff_of_true hfault ⟨w, hw⟩
    · simp [hfault, State.illegalNext, hp]
  case opens =>
    intro hs
    obtain ⟨hr, -, hfault, -⟩ | ⟨-, hs', -⟩ | ⟨hr, hfault, -⟩ := step_latch_cases s t h
    · simp [hfault, hs, hr]
    · cases hs.symm.trans hs'
    · exact iff_of_true hfault hr

/-- Settles O7, by everything a step can do: only `OUT` appends and only reset empties. -/
theorem outIsAppendOnly : Obligations.OutIsAppendOnly := by
  refine ⟨?grows, ?empties, exec_with_out⟩
  case grows =>
    intro s t h hr
    cases stepTo_of_step s t h with
    | idle _ => exact .inl rfl
    | discarded _ _ _ _ => exact .inl rfl
    | illegal _ _ _ _ _ _ => exact .inl rfl
    | wrote _ _ _ _ _ _ _ _ _ => exact .inl rfl
    | sent w rest ra hp hf hd => exact .inr ⟨w, rest, ra, hp, hf, hd, rfl⟩
    | wasReset o rest hp => exact absurd ⟨o, rest, hp⟩ hr
    | took _ _ => exact .inl (by simp)
  case empties =>
    intro s t h hr
    obtain ⟨rest, rfl⟩ := step_of_resetNext s t hr h
    rfl

/-- Settles O8, by induction on the list of words. -/
theorem unwrittenRegisterKeepsItsValue : Obligations.UnwrittenRegisterKeepsItsValue := by
  intro ws r
  induction ws with
  | nil => exact fun s _ => ⟨s, rfl, rfl⟩
  | cons w ws ih =>
    intro s h
    obtain ⟨hw, hws⟩ := List.forall_mem_cons.1 h
    obtain ⟨u, hdel, hu⟩ := deliver_keeps_readReg w r s hw
    obtain ⟨t, hall, ht⟩ := ih u hws
    exact ⟨t, (deliverAll_cons_of_next w ws s u hdel).trans hall, ht.trans hu⟩

/-- Settles O10: the fault gate and the decoder see no port, and a command reads the registers only. -/
theorem noHiddenState : Obligations.NoHiddenState := deliver_sameBlock

/-- Settles O23, by induction on the list of words: the first step delivers the first word. -/
theorem runDeliversTheWordsInOrder : Obligations.RunDeliversTheWordsInOrder := by
  intro ws later
  induction ws with
  | nil => exact fun s => ⟨_, rfl, rfl, rfl⟩
  | cons w ws ih =>
    intro s
    obtain ⟨u, hu⟩ := deliver_with_pending w s
    obtain ⟨t, hall, hrun, hlater⟩ := ih u
    have hstep : step { s with pending := .deliver w :: (ws.map .deliver ++ later) } =
        .next { u with pending := ws.map .deliver ++ later } := by
      rw [step_cons _ (.deliver w) (ws.map .deliver ++ later) rfl]
      exact hu _
    exact ⟨t, (deliverAll_cons_of_next w ws _ _ (hu later)).trans hall,
      (core_run_succ ws.length _ _ hstep).trans hrun, hlater⟩

/-- Settles O1. -/
theorem resetValues : Obligations.ResetValues := by
  intro s t ht
  obtain rfl | rfl : t = State.reset ∨ t = s.hostReset := by simpa using ht
  · exact ⟨State.readReg_reset, rfl, rfl, rfl⟩
  · exact ⟨s.readReg_hostReset, rfl, rfl, rfl⟩

/-- Settles O3: nothing is latched and nothing has left the port. -/
theorem invariantAtReset : Obligations.InvariantAtReset := ⟨fun _ => rfl, State.portInv_hostReset State.reset⟩

/-- Settles O9. -/
theorem onlyTheDestinationChanges : Obligations.OnlyTheDestinationChanges := exec_frame

/-- Settles O22, by whether a word is waiting at the port. -/
theorem outputPortPresentsEachWordOnce : Obligations.OutputPortPresentsEachWordOnce := by
  intro s rest hp
  have hstep : step s = .next (State.takeOutput { s with pending := rest }) := step_cons s _ rest hp
  refine ⟨_, hstep, State.sameBlock_takeOutput { s with pending := rest }, ?_⟩
  obtain ⟨w, hw, ht⟩ | ⟨hnone, ht⟩ := State.takeOutput_cases { s with pending := rest } <;> rw [ht]
  · refine ⟨rfl, fun w' hw' => ?_, fun hle => ?_⟩
    · cases hw.symm.trans hw'
      exact ⟨rfl, rfl⟩
    · cases hw.symm.trans (List.getElem?_eq_none hle)
  · refine ⟨rfl, fun w' hw' => ?_, fun _ => ⟨rfl, rfl⟩⟩
    cases hnone.symm.trans hw'

end Sys2Proof.Machine
end

section
/-! SUPPORT. The encoding (30_encoding.md): the decoder as "the word satisfies its row's match and mask", the two round trips
between words and instructions, and the pseudo-instructions of R55. -/

namespace Sys2Proof

/-! ## The decoder, one row at a time (R49, R50) -/

/-- A word that satisfies a row's match and mask has the row's operation code. -/
theorem opOf_of_row (w : Word) (o : Opcode) (h : w &&& o.mask = o.pattern) : opOf w = o.code := by
  cases o with
  | mul | divmul => exact ((legal_rc_iff w _).1 h).1
  | lerp | prelerp | lerp4 => exact ((legal_z12_iff w _).1 h).1
  | s2l | l2s | qnt => exact ((legal_rb_iff w _).1 h).1
  | ldi | ldih => exact ((legal_z5_iff w _).1 h).1
  | out => exact ((legal_rd_iff w _).1 h).1

/-- A word that satisfies a row's match and mask decodes to the row's command. -/
theorem decode_of_row (w : Word) (o : Opcode) (h : w &&& o.mask = o.pattern) : decode w = .ok (o.operands w) := by
  simp [decode, opOf_of_row w o h, h]

/-- Nothing else decodes. -/
theorem row_of_decode (w : Word) (i : Instr) (h : decode w = .ok i) :
    ∃ o : Opcode, w &&& o.mask = o.pattern ∧ o.operands w = i := by
  unfold decode at h
  split at h
  · cases h
  · next o _ =>
    split at h
    · next hrow => exact ⟨o, hrow, Except.ok.inj h⟩
    · cases h

/-! ## The two round trips -/

/-- The word of every instruction satisfies the match and mask of the instruction's row. -/
theorem encode_row (i : Instr) : encode i &&& (opcodeOf i).mask = (opcodeOf i).pattern := by
  cases i with
  | mul rd ra rb => exact (Laws.EncodesToItsRow.mul rd ra rb).2
  | divmul rd ra rb => exact (Laws.EncodesToItsRow.divmul rd ra rb).2
  | lerp rd ra rb rc => exact (Laws.EncodesToItsRow.lerp rd ra rb rc).2
  | prelerp rd ra rb rc => exact (Laws.EncodesToItsRow.prelerp rd ra rb rc).2
  | lerp4 rd ra rb rc => exact (Laws.EncodesToItsRow.lerp4 rd ra rb rc).2
  | s2l rd ra => exact (Laws.EncodesToItsRow.s2l rd ra).2
  | l2s rd ra => exact (Laws.EncodesToItsRow.l2s rd ra).2
  | qnt rd ra => exact (Laws.EncodesToItsRow.qnt rd ra).2
  | ldi rd imm => exact (Laws.EncodesToItsRow.ldi rd imm).2
  | ldih rd imm => exact (Laws.EncodesToItsRow.ldih rd imm).2
  | out ra => exact (Laws.EncodesToItsRow.out ra).2

/-- The operands read from the word of an instruction are the instruction's own (R46, R47, R48). -/
theorem operands_encode (i : Instr) : (opcodeOf i).operands (encode i) = i := by
  cases i <;> simp [opcodeOf, encode, Opcode.operands]

/-- Decoding undoes encoding. -/
@[simp] theorem decode_encode (i : Instr) : decode (encode i) = .ok i := by
  rw [decode_of_row _ _ (encode_row i), operands_encode]

/-- A word that satisfies a row's match and mask is rebuilt from the operands read from it: every other field is zero. -/
theorem encode_operands (w : Word) (o : Opcode) (h : w &&& o.mask = o.pattern) : encode (o.operands w) = w := by
  cases o with
  | mul | divmul =>
    obtain ⟨hop, hrc, hz⟩ := (legal_rc_iff w _).1 h
    have hw := formatR_of_fields w
    rwa [hop, hrc, hz] at hw
  | lerp | prelerp | lerp4 =>
    obtain ⟨hop, hz⟩ := (legal_z12_iff w _).1 h
    have hw := formatR_of_fields w
    rwa [hop, hz] at hw
  | s2l | l2s | qnt =>
    obtain ⟨hop, hrb, hrc, hz⟩ := (legal_rb_iff w _).1 h
    have hw := formatR_of_fields w
    rwa [hop, hrb, hrc, hz] at hw
  | ldi | ldih =>
    obtain ⟨hop, hz⟩ := (legal_z5_iff w _).1 h
    have hw := formatI_of_fields w
    rwa [hop, hz] at hw
  | out =>
    obtain ⟨hop, hrd, hrb, hrc, hz⟩ := (legal_rd_iff w _).1 h
    have hw := formatR_of_fields w
    rwa [hop, hrd, hrb, hrc, hz] at hw

/-- Encoding undoes decoding. -/
theorem encode_of_decode (w : Word) (i : Instr) (h : decode w = .ok i) : encode i = w := by
  obtain ⟨o, hrow, rfl⟩ := row_of_decode w i h
  exact encode_operands w o hrow

/-- The one legal word of an instruction is the one `encode` gives (R52): both round trips, in the form in which the statements
about single commands ask for it. -/
theorem decode_eq_ok_iff (w : Word) (i : Instr) : decode w = .ok i ↔ w = encode i :=
  ⟨fun h => (encode_of_decode w i h).symm, fun h => h ▸ decode_encode i⟩

/-! ## The statements about words -/

/-- Settles O12: the word of an instruction is a legal word of its row, and its fields are the operands. -/
theorem decodeInvertsEncode : Obligations.DecodeInvertsEncode := decode_encode

/-- Settles O13: a legal word belongs to one row, whose must-be-zero bits are the ones `encode` leaves zero. -/
theorem encodeInvertsDecode : Obligations.EncodeInvertsDecode := encode_of_decode

/-- Settles O14: the printed match and mask of each row are the decoder's. -/
theorem rowsOfTheOpcodeMap : Obligations.RowsOfTheOpcodeMap := fun w =>
  ⟨decode_of_row w .mul, decode_of_row w .divmul, decode_of_row w .lerp, decode_of_row w .prelerp, decode_of_row w .lerp4,
    decode_of_row w .s2l, decode_of_row w .l2s, decode_of_row w .qnt, decode_of_row w .ldi, decode_of_row w .ldih,
    decode_of_row w .out⟩

end Sys2Proof

namespace Sys2Proof.Machine

/-! ## A delivered word that decodes (R104) -/

/-- Settles O15: the next event is consumed, the gate is open and the word decodes. -/
theorem stepRunsTheDecodedInstruction : Obligations.StepRunsTheDecodedInstruction := by
  intro s w rest i hp hf hd
  calc step s = deliver w { s with pending := rest } := step_cons s _ rest hp
    _ = exec i { s with pending := rest } := deliver_of_ok w { s with pending := rest } i hf hd

/-! ## The words of instructions, delivered -/

/-- Delivering the word of an instruction to a block that is not faulted executes the instruction. -/
theorem deliver_encode (i : Instr) (s : State) (hf : s.fault = false) : deliver (encode i) s = exec i s :=
  deliver_of_ok _ s i hf (decode_encode i)

/-- The words of instructions are executed one after another while the block is not faulted. -/
theorem deliverAll_encode_cons (i : Instr) (ws : List Word) (s t : State) (hf : s.fault = false) (h : exec i s = .next t) :
    deliverAll (encode i :: ws) s = deliverAll ws t :=
  deliverAll_cons_of_next _ ws s t ((deliver_encode i s hf).trans h)

/-- A command that changes only `rd`, after another that changes only `rd`. -/
theorem State.sameButReg_trans (s t u : State) (rd : RegNum) (h : s.sameButReg t rd) (h' : t.sameButReg u rd) :
    s.sameButReg u rd := by
  obtain ⟨hreg, hout, hfault, hfword, hpending, htaken, hreceived⟩ := h
  obtain ⟨hreg', hout', hfault', hfword', hpending', htaken', hreceived'⟩ := h'
  exact ⟨fun k hk => (hreg' k hk).trans (hreg k hk), hout'.trans hout, hfault'.trans hfault, hfword'.trans hfword,
    hpending'.trans hpending, htaken'.trans htaken, hreceived'.trans hreceived⟩

/-! ## The kernels the pseudo-instructions rest on -/

/-- The product of two channels does not depend on their order (R61). -/
theorem multiply_comm (a b : Nat) : multiply a b = multiply b a := by
  simp only [multiply, Nat.mul_comm a b]

/-- `MUL` with its two sources exchanged (R62). -/
theorem exec_mul_comm (rd ra rb : RegNum) (s : State) : exec (.mul rd ra rb) s = exec (.mul rd rb ra) s := by
  simp only [exec, execMul, multiply_comm (s.ch ra)]

/-- `Lerp` ends with `trunc8` (R65). -/
theorem lerp_le (p q a : Nat) : lerp p q a ≤ 255 := by
  simp only [lerp, trunc8]
  omega

/-- `Lerp` from a channel to itself stays there, whatever the weight (R65). -/
theorem lerp_self (p a : Nat) (hp : p ≤ 255) : lerp p p a = p := by
  simpa [lerp, asr] using trunc8_of_range p hp

/-- Each lane of `LERP4` is the `Lerp` of that lane (R69). -/
theorem lane_lerp4 (p q : Word) (a k : Nat) (hk : k < 4) : lane (lerp4 p q a) k = lerp (lane p k) (lane q k) a := by
  obtain ⟨h3, h2, h1, h0⟩ := lane_pack (lerp (lane p 3) (lane q 3) a) (lerp (lane p 2) (lane q 2) a)
    (lerp (lane p 1) (lane q 1) a) (lerp (lane p 0) (lane q 0) a) (lerp_le ..) (lerp_le ..) (lerp_le ..) (lerp_le ..)
  interval_cases k
  exacts [h0, h1, h2, h3]

/-- `LERP4` from a colour to itself copies it (R55 `MOV`, R69). -/
theorem lerp4_self (p : Word) (a : Nat) : lerp4 p p a = p := by
  simp only [lerp4, lerp_self _ a (lane_le p _), pack_lanes]

/-- The lower half of a word that holds an immediate is the immediate (R95). -/
theorem lower_zext32 (imm : Imm16) : (zext32 imm.toNat).extractLsb' 0 16 = imm := by
  apply BitVec.eq_of_toNat_eq
  have := imm.isLt
  rw [BitVec.extractLsb'_toNat, toNat_zext32 _ (by omega), Nat.shiftRight_zero]
  omega

/-- The two halves of a word, put together, are the word. -/
theorem upper_append_lower (w : Word) : w.extractLsb' 16 16 ++ w.extractLsb' 0 16 = w := by
  rw [BitVec.extractLsb'_append_extractLsb'_eq_extractLsb' (by rfl)]
  exact BitVec.extractLsb'_eq_self

/-! ## What the commands behind them write -/

/-- What `LDI` writes, and its frame (R95). -/
theorem exec_ldi_spec (rd : RegNum) (imm : Imm16) (s : State) :
    ∃ t, exec (.ldi rd imm) s = .next t ∧ s.sameButReg t rd ∧ t.readReg rd = zext32 imm.toNat :=
  ⟨_, rfl, s.sameButReg_writeReg .., s.readReg_writeReg_same ..⟩

/-- What `LDIH` writes, and its frame (R96). -/
theorem exec_ldih_spec (rd : RegNum) (imm : Imm16) (s : State) :
    ∃ t, exec (.ldih rd imm) s = .next t ∧ s.sameButReg t rd ∧
      t.readReg rd = imm ++ (s.readReg rd).extractLsb' 0 16 :=
  ⟨_, rfl, s.sameButReg_writeReg .., s.readReg_writeReg_same ..⟩

/-- What `LERP4` writes, and its frame (R69). -/
theorem exec_lerp4_spec (rd ra rb rc : RegNum) (s : State) :
    ∃ t, exec (.lerp4 rd ra rb rc) s = .next t ∧ s.sameButReg t rd ∧
      t.readReg rd = lerp4 (s.readReg ra) (s.readReg rb) (s.ch rc) :=
  ⟨_, rfl, s.sameButReg_writeReg .., s.readReg_writeReg_same ..⟩

/-- `LDI` of the lower half, then `LDIH` of the upper half, loads a word and changes only the destination (R55 `LI`). -/
theorem deliverAll_ldi_ldih (rd : RegNum) (w : Word) (s : State) (hf : s.fault = false) :
    ∃ t, deliverAll [encode (.ldi rd (w.extractLsb' 0 16)), encode (.ldih rd (w.extractLsb' 16 16))] s = .next t ∧
      s.sameButReg t rd ∧ t.readReg rd = w := by
  obtain ⟨u, hldi, hu, hlow⟩ := exec_ldi_spec rd (w.extractLsb' 0 16) s
  obtain ⟨t, hldih, ht, hload⟩ := exec_ldih_spec rd (w.extractLsb' 16 16) u
  have hfu : u.fault = false := (latch_of_exec _ s u hldi).1.trans hf
  refine ⟨t, ?_, s.sameButReg_trans u t rd hu ht, ?_⟩
  · rw [deliverAll_encode_cons _ _ s u hf hldi, deliverAll_encode_cons _ _ u t hfu hldih, deliverAll]
  · rw [hload, hlow, lower_zext32, upper_append_lower]

/-! ## The assembler on the pseudo-instructions (R54, R55) -/

/-- A register is named by its own number (R10). -/
@[simp] theorem regNum_val (r : RegNum) : regNum r = r := Fin.ofNat_val_eq_self r

/-- The number of a register is a register name (R10, R54). -/
@[simp] theorem isRegName_val (r : RegNum) : isRegName r = true := decide_eq_true r.isLt

theorem assemble_multcover (rd ra rb : RegNum) : assemble (.multcover rd ra rb) = some [encode (.mul rd ra rb)] := by
  simp [assemble, AsmLine.wellFormed, expandLine]

theorem assemble_scalecover (rd ra rb : RegNum) : assemble (.scalecover rd ra rb) = some [encode (.mul rd ra rb)] := by
  simp [assemble, AsmLine.wellFormed, expandLine]

theorem assemble_gradient (rd rt rk : RegNum) : assemble (.gradient rd rt rk) = some [encode (.lerp4 rd rd rt rk)] := by
  simp [assemble, AsmLine.wellFormed, expandLine]

theorem assemble_mov (rd ra : RegNum) : assemble (.mov rd ra) = some [encode (.lerp4 rd ra ra ra)] := by
  simp [assemble, AsmLine.wellFormed, expandLine]

/-- The immediates of `LI` are the two halves of the constant's word. -/
theorem assemble_li (rd : RegNum) (c : Nat) (hc : c < 2 ^ 32) :
    assemble (.li rd c) = some [encode (.ldi rd ((BitVec.ofNat 32 c).extractLsb' 0 16)),
      encode (.ldih rd ((BitVec.ofNat 32 c).extractLsb' 16 16))] := by
  have hlow : (BitVec.ofNat 32 c).extractLsb' 0 16 = BitVec.ofNat 16 (c % 65536) := by
    apply BitVec.eq_of_toNat_eq
    simp only [BitVec.extractLsb'_toNat, BitVec.toNat_ofNat, Nat.shiftRight_eq_div_pow]
    omega
  have hhigh : (BitVec.ofNat 32 c).extractLsb' 16 16 = BitVec.ofNat 16 (c / 65536) := by
    apply BitVec.eq_of_toNat_eq
    simp only [BitVec.extractLsb'_toNat, BitVec.toNat_ofNat, Nat.shiftRight_eq_div_pow]
    omega
  have hfits : fitsWord c = true := decide_eq_true hc
  simp [assemble, AsmLine.wellFormed, expandLine, hfits, hlow, hhigh]

/-! ## The statement -/

/-- Settles O47: each expansion is executed by delivering it, and the kernels say what it writes. -/
theorem pseudoInstructions : Obligations.PseudoInstructions := by
  intro rd ra rb c s hc hf
  refine ⟨?cover, ?gradient, ?li, ?mov⟩
  case cover =>
    exact ⟨_, _, assemble_multcover rd ra rb, assemble_scalecover rd ra rb, rfl, deliverAll_encode_cons _ [] s _ hf rfl,
      rfl, (exec_mul_comm rd rb ra s).trans rfl, s.sameButReg_writeReg ..⟩
  case gradient =>
    obtain ⟨t, hexec, hframe, hread⟩ := exec_lerp4_spec rd rd ra rb s
    refine ⟨_, t, assemble_gradient rd ra rb, rfl, deliverAll_encode_cons _ [] s t hf hexec, hframe, fun k hk => ?_⟩
    rw [hread, lane_lerp4 _ _ _ k hk]
  case li =>
    obtain ⟨t, hall, hframe, hload⟩ := deliverAll_ldi_ldih rd (BitVec.ofNat 32 c) s hf
    exact ⟨_, t, assemble_li rd c hc, rfl, hall, hframe, hload⟩
  case mov =>
    obtain ⟨t, hexec, hframe, hread⟩ := exec_lerp4_spec rd ra ra ra s
    exact ⟨_, t, assemble_mov rd ra, rfl, deliverAll_encode_cons _ [] s t hf hexec, hframe, hread.trans (lerp4_self ..)⟩

end Sys2Proof.Machine
end

section
/-! SUPPORT. The blend commands (40_blend.md). `Multiply` is the integer nearest to `a*b/255`; `Lerp` adds or subtracts one
`Multiply` of the distance of its two ends; the rest follows from these two facts. First the kernels one by one, then the
statements about kernels, then the statements about commands. -/

namespace Sys2Proof.Machine

/-! ## Multiply (R61) -/

/-- The product of two channels. -/
theorem chan_mul_le (a b : Nat) (ha : a ≤ 255) (hb : b ≤ 255) : a * b ≤ 65025 := Nat.mul_le_mul ha hb

/-- The formula with the arithmetic shift that the rule prints (R6, R61). -/
theorem multiply_eq_asr (a b : Nat) : (multiply a b : Int) = asr (asr (a * b + 128) 8 + (a * b + 128)) 8 := by
  simp [multiply, asr]

/-- Adding the shifted value once replaces the division by 255: the result is `floor(a*b/255 + 1/2)`. -/
theorem multiply_eq_div (a b : Nat) (ha : a ≤ 255) (hb : b ≤ 255) : multiply a b = (2 * (a * b) + 255) / 510 := by
  have := chan_mul_le a b ha hb
  simp only [multiply]
  omega

/-- The result `m` as the integer with `m ≤ a*b/255 + 1/2 < m + 1`, free of division. -/
theorem multiply_bounds (a b : Nat) (ha : a ≤ 255) (hb : b ≤ 255) :
    510 * multiply a b ≤ 2 * (a * b) + 255 ∧ 2 * (a * b) + 255 < 510 * (multiply a b + 1) := by
  rw [multiply_eq_div a b ha hb]
  omega

/-- The nearest integer, and no tie: `2*a*b` is even and 255 is odd. -/
theorem multiply_nearest (a b : Nat) (ha : a ≤ 255) (hb : b ≤ 255) :
    -255 < 2 * (255 * (multiply a b : Int) - a * b) ∧ 2 * (255 * (multiply a b : Int) - a * b) < 255 := by
  have := multiply_bounds a b ha hb
  push_cast [← Int.ofNat_le, ← Int.ofNat_lt] at this
  omega

@[simp] theorem multiply_zero_right (a : Nat) : multiply a 0 = 0 := by simp [multiply]

@[simp] theorem multiply_zero_left (b : Nat) : multiply 0 b = 0 := by simp [multiply]

/-- 255 represents 1.0 (R60). -/
theorem multiply_255_right (a : Nat) (ha : a ≤ 255) : multiply a 255 = a := by
  rw [multiply_eq_div a 255 ha le_rfl]
  omega

/-- A product with a channel is not above the other factor. -/
theorem multiply_le_left (a b : Nat) (ha : a ≤ 255) (hb : b ≤ 255) : multiply a b ≤ a := by
  have hbounds := multiply_bounds a b ha hb
  have hmul : a * b ≤ a * 255 := Nat.mul_le_mul_left a hb
  omega

theorem multiply_le_right (a b : Nat) (ha : a ≤ 255) (hb : b ≤ 255) : multiply a b ≤ b :=
  multiply_comm a b ▸ multiply_le_left b a hb ha

/-- A weight and its complement share a channel out without loss: two roundings to nearest with no tie cancel. -/
theorem multiply_add_complement (a b : Nat) (ha : a ≤ 255) (hb : b ≤ 255) :
    multiply a b + multiply a (255 - b) = a := by
  have hbounds := multiply_bounds a b ha hb
  have hbounds' := multiply_bounds a (255 - b) ha (Nat.sub_le ..)
  have hsplit : a * (255 - b) = a * 255 - a * b := Nat.mul_sub ..
  have hmul : a * b ≤ a * 255 := Nat.mul_le_mul_left a hb
  omega

/-- `r` is the product of two channels if it is within one half of `a*b/255`. -/
theorem multiply_eq_of_bounds (a b r : Nat) (ha : a ≤ 255) (hb : b ≤ 255) (hlow : 510 * r ≤ 2 * (a * b) + 255)
    (hhigh : 2 * (a * b) + 255 < 510 * (r + 1)) : multiply a b = r := by
  have hbounds := multiply_bounds a b ha hb
  omega

/-! ## DividMultiply (R63) -/

/-- The zero test comes first (C6). -/
theorem dividMultiply_of_zero (a b : Nat) (h : a = 0 ∨ b = 0) : dividMultiply a b = 0 := if_pos h

/-- Saturation. -/
theorem dividMultiply_of_le (a b : Nat) (hb : 0 < b) (hba : b ≤ a) : dividMultiply a b = 255 := by
  rw [dividMultiply, if_neg (by omega), if_pos hba]

/-- The quotient proper. -/
theorem dividMultiply_of_lt (a b : Nat) (ha : 0 < a) (hab : a < b) : dividMultiply a b = (a * 255 + b / 2) / b := by
  rw [dividMultiply, if_neg (by omega), if_neg (by omega)]

/-- Round half up: the quotient `r` is `floor(a*255/b + 1/2)`, free of division. -/
theorem dividMultiply_bounds (a b : Nat) (ha : 0 < a) (hab : a < b) :
    2 * b * dividMultiply a b ≤ 510 * a + b ∧ 510 * a + b < 2 * b * (dividMultiply a b + 1) := by
  rw [dividMultiply_of_lt a b ha hab]
  have hlow : b * ((a * 255 + b / 2) / b) ≤ a * 255 + b / 2 := Nat.mul_div_le ..
  have hhigh : a * 255 + b / 2 < b * ((a * 255 + b / 2) / b + 1) := Nat.lt_mul_div_succ _ (by omega)
  rw [Nat.mul_assoc, Nat.mul_assoc]
  omega

/-- The quotient proper neither vanishes nor saturates. -/
theorem dividMultiply_mem_range (a b : Nat) (ha : 0 < a) (hab : a < b) (hb : b ≤ 255) :
    1 ≤ dividMultiply a b ∧ dividMultiply a b ≤ 254 := by
  rw [dividMultiply_of_lt a b ha hab]
  exact ⟨(Nat.one_le_div_iff (by omega)).2 (by omega), Nat.le_of_lt_succ ((Nat.div_lt_iff_lt_mul (by omega)).2 (by omega))⟩

theorem dividMultiply_le (a b : Nat) (hb : b ≤ 255) : dividMultiply a b ≤ 255 := by
  by_cases hzero : a = 0 ∨ b = 0
  · simp [dividMultiply_of_zero a b hzero]
  · by_cases hba : b ≤ a
    · rw [dividMultiply_of_le a b (by omega) hba]
    · have := dividMultiply_mem_range a b (by omega) (by omega) hb
      omega

/-- `Multiply` undoes `DividMultiply` where the quotient does not lose its operand to saturation (R73 item 7, C2): scaling
the error of the quotient by `b/255` leaves less than one half. -/
theorem multiply_dividMultiply (a b : Nat) (ha : 0 < a) (hab : a ≤ b) (hb : b ≤ 255) :
    multiply (dividMultiply a b) b = a := by
  obtain rfl | hlt := Nat.eq_or_lt_of_le hab
  · rw [dividMultiply_of_le a a ha le_rfl, multiply_comm, multiply_255_right a hb]
  · have hbounds := dividMultiply_bounds a b ha hlt
    rw [Nat.mul_assoc, Nat.mul_assoc, Nat.mul_add_one, Nat.mul_comm b] at hbounds
    exact multiply_eq_of_bounds _ b a (dividMultiply_le a b hb) hb (by omega) (by omega)

/-! ## Lerp (R65) -/

/-- The term `t` of R65: the weighted distance, biased for rounding. -/
def lerpTerm (p q a : Nat) : Int := ((q : Int) - p) * a + 128 - if p > q then 1 else 0

/-- The signed step `d` of R65 from `p` to the result. -/
def lerpDelta (p q a : Nat) : Int := asr (asr (lerpTerm p q a) 8 + lerpTerm p q a) 8

theorem lerp_eq_trunc8 (p q a : Nat) : lerp p q a = trunc8 (p + lerpDelta p q a) := rfl

/-- The two directions: upward or level, and strictly downward. -/
theorem ends_cases (p q : Nat) : (∃ d, q = p + d) ∨ ∃ d, 0 < d ∧ p = q + d := by
  obtain hqp | hpq := Nat.lt_or_ge q p
  · exact .inr ⟨p - q, by omega, by omega⟩
  · exact .inl ⟨q - p, by omega⟩

theorem lerpTerm_up (p d a : Nat) : lerpTerm p (p + d) a = d * a + 128 := by
  simp [lerpTerm]

theorem lerpTerm_down (q d a : Nat) (hd : 0 < d) : lerpTerm (q + d) q a = 255 - (d * a + 128) := by
  simp only [lerpTerm, gt_iff_lt, Nat.lt_add_right_iff_pos, hd, if_true]
  push_cast
  ring

/-- The flooring shift of a value reflected at 255 is the shift of the value, negated: this is what the bias `c` is for. -/
theorem asr_reflect (k : Int) : asr (255 - k) 8 = -asr k 8 := by
  simp only [asr]
  omega

theorem lerpDelta_up (p d a : Nat) : lerpDelta p (p + d) a = multiply d a := by
  rw [lerpDelta, lerpTerm_up, multiply_eq_asr]

theorem lerpDelta_down (q d a : Nat) (hd : 0 < d) : lerpDelta (q + d) q a = -multiply d a := by
  have hsum (k : Int) : -asr k 8 + (255 - k) = 255 - (asr k 8 + k) := by omega
  rw [lerpDelta, lerpTerm_down q d a hd, asr_reflect, hsum, asr_reflect, multiply_eq_asr]

/-- Upward, `Lerp` adds the weighted distance. -/
theorem lerp_up (p d a : Nat) (hq : p + d ≤ 255) (ha : a ≤ 255) : lerp p (p + d) a = p + multiply d a := by
  have hle := multiply_le_left d a (by omega) ha
  rw [lerp_eq_trunc8, lerpDelta_up]
  exact_mod_cast trunc8_of_range (p + multiply d a) (by omega)

/-- Downward, `Lerp` subtracts the weighted distance. -/
theorem lerp_down (q d a : Nat) (hp : q + d ≤ 255) (ha : a ≤ 255) : lerp (q + d) q a = q + d - multiply d a := by
  obtain rfl | hd := Nat.eq_zero_or_pos d
  · simpa using lerp_self q a hp
  · have hle := multiply_le_left d a (by omega) ha
    have hcast : ((q + d : Nat) : Int) + -(multiply d a : Int) = ((q + d - multiply d a : Nat) : Int) := by omega
    rw [lerp_eq_trunc8, lerpDelta_down q d a hd, hcast]
    exact trunc8_of_range _ (by omega)

theorem lerp_weight_zero (p q : Nat) (hp : p ≤ 255) (hq : q ≤ 255) : lerp p q 0 = p := by
  obtain ⟨d, rfl⟩ | ⟨d, hd, rfl⟩ := ends_cases p q
  · simp [lerp_up p d 0 hq]
  · simp [lerp_down q d 0 hp]

theorem lerp_weight_255 (p q : Nat) (hp : p ≤ 255) (hq : q ≤ 255) : lerp p q 255 = q := by
  obtain ⟨d, rfl⟩ | ⟨d, hd, rfl⟩ := ends_cases p q
  · rw [lerp_up p d 255 hq le_rfl, multiply_255_right d (by omega)]
  · rw [lerp_down q d 255 hp le_rfl, multiply_255_right d (by omega), Nat.add_sub_cancel]

/-- The result lies between the two ends. -/
theorem lerp_mem_range (p q a : Nat) (hp : p ≤ 255) (hq : q ≤ 255) (ha : a ≤ 255) :
    min p q ≤ lerp p q a ∧ lerp p q a ≤ max p q := by
  obtain ⟨d, rfl⟩ | ⟨d, hd, rfl⟩ := ends_cases p q
  · have hle := multiply_le_left d a (by omega) ha
    rw [lerp_up p d a hq ha]
    omega
  · have hle := multiply_le_left d a (by omega) ha
    rw [lerp_down q d a hp ha]
    omega

/-- The integer nearest to `p + (q-p)*a/255`, and no tie. -/
theorem lerp_nearest (p q a : Nat) (hp : p ≤ 255) (hq : q ≤ 255) (ha : a ≤ 255) :
    -255 < 2 * (255 * (lerp p q a : Int) - (255 * p + ((q : Int) - p) * a)) ∧
    2 * (255 * (lerp p q a : Int) - (255 * p + ((q : Int) - p) * a)) < 255 := by
  obtain ⟨d, rfl⟩ | ⟨d, hd, rfl⟩ := ends_cases p q
  · have hnear := multiply_nearest d a (by omega) ha
    rw [lerp_up p d a hq ha, show ((p + d : Nat) : Int) - p = d by omega]
    omega
  · have hnear := multiply_nearest d a (by omega) ha
    have hle := multiply_le_left d a (by omega) ha
    rw [lerp_down q d a hp ha, show (q : Int) - (q + d : Nat) = -d by omega, Int.neg_mul]
    omega

/-- Going from one end and from the other with one weight, the two results share out the sum of the ends (R73). -/
theorem lerp_add_swap (p q a : Nat) (hp : p ≤ 255) (hq : q ≤ 255) (ha : a ≤ 255) : lerp p q a + lerp q p a = p + q := by
  wlog hpq : p ≤ q generalizing p q
  · rw [Nat.add_comm, this q p hq hp (by omega), Nat.add_comm]
  · obtain ⟨d, rfl⟩ := Nat.exists_eq_add_of_le hpq
    have hle := multiply_le_left d a (by omega) ha
    rw [lerp_up p d a hq ha, lerp_down p d a hq ha]
    omega

/-- Swapping the ends complements the weight (R73). -/
theorem lerp_swap_complement (p q a : Nat) (hp : p ≤ 255) (hq : q ≤ 255) (ha : a ≤ 255) :
    lerp p q a = lerp q p (255 - a) := by
  obtain ⟨d, rfl⟩ | ⟨d, hd, rfl⟩ := ends_cases p q
  · have hshare := multiply_add_complement d a (by omega) ha
    rw [lerp_up p d a hq ha, lerp_down p d (255 - a) hq (Nat.sub_le ..)]
    omega
  · have hshare := multiply_add_complement d a (by omega) ha
    rw [lerp_down q d a hp ha, lerp_up q d (255 - a) hp (Nat.sub_le ..)]
    omega

/-- The printed ranges of the intermediate values of R65. -/
theorem lerpTerm_range (p q a : Nat) (hp : p ≤ 255) (hq : q ≤ 255) (ha : a ≤ 255) :
    -64898 ≤ lerpTerm p q a ∧ lerpTerm p q a ≤ 65153 := by
  obtain ⟨d, rfl⟩ | ⟨d, hd, rfl⟩ := ends_cases p q
  · have hmul := chan_mul_le d a (by omega) ha
    rw [lerpTerm_up]
    omega
  · have hmul := chan_mul_le d a (by omega) ha
    rw [lerpTerm_down q d a hd]
    omega

/-- The range of the sum that is shifted last follows from the range of the term. -/
theorem asr_add_range (t : Int) (h : -64898 ≤ t ∧ t ≤ 65153) : -65152 ≤ asr t 8 + t ∧ asr t 8 + t ≤ 65407 := by
  simp only [asr]
  omega

/-- The step from `p` is a difference of two channels, and no bit is lost by `trunc8`. -/
theorem lerp_eq_add_delta (p q a : Nat) (hp : p ≤ 255) (hq : q ≤ 255) (ha : a ≤ 255) :
    (lerp p q a : Int) = p + lerpDelta p q a := by
  obtain ⟨d, rfl⟩ | ⟨d, hd, rfl⟩ := ends_cases p q
  · rw [lerp_up p d a hq ha, lerpDelta_up]
    push_cast
    rfl
  · have hle := multiply_le_left d a (by omega) ha
    rw [lerp_down q d a hp ha, lerpDelta_down q d a hd]
    omega

/-! ## Prelerp (R67) -/

/-- What the weight takes from a channel leaves no negative value, so `trunc8` only drops multiples of 256. -/
theorem prelerp_eq_mod (p q a : Nat) (hp : p ≤ 255) (ha : a ≤ 255) :
    prelerp p q a = (p + q - multiply p a) % 256 := by
  have hle := multiply_le_left p a hp ha
  simp only [prelerp, trunc8]
  omega

theorem prelerp_weight_zero (p q : Nat) (hp : p ≤ 255) : prelerp p q 0 = (p + q) % 256 := by
  rw [prelerp_eq_mod p q 0 hp (by omega), multiply_zero_right, Nat.sub_zero]

theorem prelerp_weight_255 (p q : Nat) (hp : p ≤ 255) (hq : q ≤ 255) : prelerp p q 255 = q := by
  rw [prelerp_eq_mod p q 255 hp le_rfl, multiply_255_right p hp]
  omega

/-- For a premultiplied source (`q ≤ a`) the destination's share `p - Multiply(p, a)` is a product with `255 - a`, which
leaves room for the source. -/
theorem prelerp_of_premultiplied (p q a : Nat) (hp : p ≤ 255) (ha : a ≤ 255) (hqa : q ≤ a) :
    prelerp p q a = p + q - multiply p a := by
  have hshare := multiply_add_complement p a hp ha
  have hroom := multiply_le_right p (255 - a) hp (Nat.sub_le ..)
  rw [prelerp_eq_mod p q a hp ha]
  omega

/-! ## LERP4 (R69) -/

theorem lerp4_weight_zero (p q : Word) : lerp4 p q 0 = p := by
  simp only [lerp4, lerp_weight_zero _ _ (lane_le p _) (lane_le q _), pack_lanes]

theorem lerp4_weight_255 (p q : Word) : lerp4 p q 255 = q := by
  simp only [lerp4, lerp_weight_255 _ _ (lane_le p _) (lane_le q _), pack_lanes]

/-! ## The statements about kernels -/

/-- Settles O29: the ranges come from `a*b ≤ 65025`, the rest from `floor(a*b/255 + 1/2)`. -/
theorem multiplyIsTheNearestInteger : Obligations.MultiplyIsTheNearestInteger := by
  intro a b ha hb
  have hmul := chan_mul_le a b ha hb
  have hranges : (128 : Int) ≤ a * b + 128 ∧ (a * b + 128 : Int) ≤ 65153 ∧ asr (a * b + 128) 8 ≤ 254 ∧
      asr (a * b + 128) 8 + (a * b + 128) ≤ 65407 := by
    simp only [asr]
    omega
  exact ⟨⟨multiply_eq_asr a b, hranges⟩, (multiply_le_left a b ha hb).trans ha, multiply_nearest a b ha hb⟩

/-- Settles O30, one case of the rule after the other. -/
theorem dividMultiplyRoundsHalfUp : Obligations.DividMultiplyRoundsHalfUp := by
  intro a b ha hb
  refine ⟨dividMultiply_le a b hb, dividMultiply_of_zero a b,
    fun _ hb0 => dividMultiply_of_le a b (Nat.pos_of_ne_zero hb0), fun ha0 hab => ?_⟩
  obtain ⟨hpos, hbelow⟩ := dividMultiply_mem_range a b ha0 hab hb
  exact ⟨dividMultiply_of_lt a b ha0 hab, by omega, by omega, hpos, hbelow, dividMultiply_bounds a b ha0 hab⟩

/-- Settles O31: the ends are `p` and `p + d` or `q + d` and `q`, and `Lerp` is a sum or a difference with `Multiply`. -/
theorem lerpIsExactAndNearest : Obligations.LerpIsExactAndNearest := by
  intro p q a hp hq ha
  obtain ⟨hmin, hmax⟩ := lerp_mem_range p q a hp hq ha
  obtain ⟨hlow, hhigh⟩ := lerp_nearest p q a hp hq ha
  refine ⟨?intermediate, ?up, ?down, hmin, hmax, hlow, hhigh, lerp_weight_zero p q hp hq, lerp_weight_255 p q hp hq,
    lerp_self p a hp⟩
  case intermediate =>
    have hterm := lerpTerm_range p q a hp hq ha
    obtain ⟨hsumLow, hsumHigh⟩ := asr_add_range _ hterm
    have hvalue := lerp_eq_add_delta p q a hp hq ha
    have hdelta : -255 ≤ lerpDelta p q a ∧ lerpDelta p q a ≤ 255 ∧ 0 ≤ p + lerpDelta p q a ∧
        p + lerpDelta p q a ≤ 255 := by omega
    exact ⟨hvalue, hterm.1, hterm.2, hsumLow, hsumHigh, hdelta⟩
  case up =>
    intro hpq
    obtain ⟨d, rfl⟩ := Nat.exists_eq_add_of_le hpq
    rw [lerp_up p d a hq ha, Nat.add_sub_cancel_left]
  case down =>
    intro hqp
    obtain ⟨d, rfl⟩ := Nat.exists_eq_add_of_le hqp.le
    rw [lerp_down q d a hp ha, Nat.add_sub_cancel_left]

/-- Settles O32: `Multiply(p, a) ≤ p` keeps the difference from going below zero. -/
theorem prelerpTruncates : Obligations.PrelerpTruncates := fun p q a hp hq ha =>
  ⟨multiply_le_left p a hp ha, by omega, prelerp_eq_mod p q a hp ha, prelerp_of_premultiplied p q a hp ha, by decide⟩

/-- Settles O33, with the recovery property in the form of C2. -/
theorem multiplyLaws : Obligations.MultiplyLaws := fun a b ha hb =>
  ⟨multiply_comm a b, multiply_255_right a ha, multiply_zero_right a, multiply_eq_div a b ha hb,
    Nat.le_min.2 ⟨multiply_le_left a b ha hb, multiply_le_right a b ha hb⟩,
    fun ha0 hab => multiply_dividMultiply a b ha0 hab hb⟩

/-- Settles O34; an empty source (`q = 0`) is premultiplied for every weight. -/
theorem lerpAndPrelerpLaws : Obligations.LerpAndPrelerpLaws := fun p q a hp hq ha =>
  ⟨lerp_weight_zero p q hp hq, lerp_weight_255 p q hp hq, lerp_self p a hp, lerp_add_swap p q a hp hq ha,
    lerp_swap_complement p q a hp hq ha, prelerp_weight_255 p q hp hq, prelerp_weight_zero p q hp,
    prelerp_of_premultiplied p 0 a hp ha (Nat.zero_le a)⟩

/-! ## The statements about commands -/

/-- A command that writes `v` to `rd` changes nothing else, and `v` is what `rd` then holds (R12, R60). -/
theorem exec_spec_of_writeReg (i : Instr) (rd : RegNum) (v : Word) (s : State) (h : exec i s = .next (s.writeReg rd v)) :
    ∃ t, exec i s = .next t ∧ s.sameButReg t rd ∧ t.readReg rd = v :=
  ⟨_, h, s.sameButReg_writeReg rd v, s.readReg_writeReg_same rd v⟩

/-- `zext32` of a channel is zero for the channel 0 only. -/
theorem zext32_eq_zero_iff (v : Nat) (h : v ≤ 255) : zext32 v = 0#32 ↔ v = 0 := by
  rw [← BitVec.toNat_inj, toNat_zext32 v (by omega), BitVec.toNat_zero]

/-- Settles O24: the value is `Multiply`, whose closed form says when it is nonzero. -/
theorem mulCommand : Obligations.MulCommand := by
  intro rd ra rb s
  have ha := s.ch_le ra
  have hb := s.ch_le rb
  obtain ⟨t, hexec, hframe, hread⟩ :=
    exec_spec_of_writeReg (.mul rd ra rb) rd (zext32 (multiply (s.ch ra) (s.ch rb))) s rfl
  have hdiv := multiply_eq_div _ _ ha hb
  refine ⟨fun w => decode_eq_ok_iff w _, t, hexec, hframe, hread, hdiv, ?zero, ?one, ?nonzero⟩
  case zero =>
    intro h
    rw [hread, h, multiply_zero_right, zext32]
  case one =>
    intro h
    rw [hread, h, multiply_255_right _ ha]
  case nonzero =>
    rw [hread, ne_eq, zext32_eq_zero_iff _ ((multiply_le_left _ _ ha hb).trans ha), hdiv]
    omega

/-- Settles O25: the value is `DividMultiply`, in the three cases of R63. -/
theorem divmulCommand : Obligations.DivmulCommand := by
  intro rd ra rb s
  have hb := s.ch_le rb
  obtain ⟨t, hexec, hframe, hread⟩ :=
    exec_spec_of_writeReg (.divmul rd ra rb) rd (zext32 (dividMultiply (s.ch ra) (s.ch rb))) s rfl
  refine ⟨fun w => decode_eq_ok_iff w _, t, hexec, hframe, hread, ?zero, ?saturated, ?quotient⟩
  case zero =>
    intro h
    rw [hread, dividMultiply_of_zero _ _ h, zext32]
  case saturated =>
    intro hb0 hba
    rw [hread, dividMultiply_of_le _ _ hb0 hba, zext32]
  case quotient =>
    intro ha0 hab
    obtain ⟨hpos, hbelow⟩ := dividMultiply_mem_range _ _ ha0 hab hb
    exact ⟨_, hread, hpos, hbelow, dividMultiply_bounds _ _ ha0 hab⟩

/-- Settles O26: the value is `Lerp`, the nearest integer and exact at both ends. -/
theorem lerpCommand : Obligations.LerpCommand := by
  intro rd ra rb rc s
  have ha := s.ch_le ra
  have hb := s.ch_le rb
  obtain ⟨t, hexec, hframe, hread⟩ :=
    exec_spec_of_writeReg (.lerp rd ra rb rc) rd (zext32 (lerp (s.ch ra) (s.ch rb) (s.ch rc))) s rfl
  obtain ⟨hlow, hhigh⟩ := lerp_nearest _ _ _ ha hb (s.ch_le rc)
  refine ⟨fun w => decode_eq_ok_iff w _, t, _, hexec, hframe, hread, rfl, lerp_le .., hlow, hhigh, ?zero, ?one, ?level⟩
  case zero =>
    intro h
    rw [h, lerp_weight_zero _ _ ha hb]
  case one =>
    intro h
    rw [h, lerp_weight_255 _ _ ha hb]
  case level =>
    intro h
    rw [← h, lerp_self _ _ ha]

/-- Settles O27: the value is `Prelerp`, with `Multiply` in closed form. -/
theorem prelerpCommand : Obligations.PrelerpCommand := by
  intro rd ra rb rc s
  have ha := s.ch_le ra
  have hc := s.ch_le rc
  obtain ⟨t, hexec, hframe, hread⟩ :=
    exec_spec_of_writeReg (.prelerp rd ra rb rc) rd (zext32 (prelerp (s.ch ra) (s.ch rb) (s.ch rc))) s rfl
  refine ⟨fun w => decode_eq_ok_iff w _, t, hexec, hframe, hread, ?value, ?one, ?zero⟩
  case value => rw [prelerp_eq_mod _ _ _ ha hc, multiply_eq_div _ _ ha hc]
  case one =>
    intro h
    rw [hread, h, prelerp_weight_255 _ _ ha (s.ch_le rb)]
  case zero =>
    intro h
    rw [hread, h, prelerp_weight_zero _ _ ha]

/-- Settles O28: the value is `Lerp` lane by lane, and four lanes put together are the word. -/
theorem lerp4Command : Obligations.Lerp4Command := by
  intro rd ra rb rc s
  obtain ⟨t, hexec, hframe, hread⟩ := exec_lerp4_spec rd ra rb rc s
  refine ⟨fun w => decode_eq_ok_iff w _, t, hexec, hframe, ?lanes, ?zero, ?one, ?level⟩
  case lanes =>
    intro k hk
    rw [hread, lane_lerp4 _ _ _ k hk]
  case zero =>
    intro h
    rw [hread, h, lerp4_weight_zero]
  case one =>
    intro h
    rw [hread, h, lerp4_weight_255]
  case level =>
    intro h
    rw [hread, ← h, lerp4_self]

end Sys2Proof.Machine
end

section
/-! SUPPORT. The gamma commands (41_gamma.md). Two facts carry the part: the comparison of patterns that are no NaN is that of
their ranks in a linear order, and the thresholds that a value exceeds are exactly those from 1 to its code. First the order,
then counting and searching for the end of an initial segment, then the tables, then the statements. -/

namespace Sys2Proof.Machine

/-! ## The order of binary32 patterns (R6, R8) -/

/-- Where a pattern stands in the order of R6: an infinity at its end, everything else at its numerator. -/
def fRank (w : Word) : WithBot (WithTop Int) :=
  if isInf w then (if fSign w then ⊥ else ⊤) else ((fNum w : WithTop Int))

theorem fRank_of_not_inf (w : Word) (h : isInf w = false) : fRank w = ((fNum w : WithTop Int)) := by
  simp [fRank, h]

theorem fRank_of_neg_inf (w : Word) (h : isInf w = true) (hs : fSign w = true) : fRank w = ⊥ := by
  simp [fRank, h, hs]

theorem fRank_of_pos_inf (w : Word) (h : isInf w = true) (hs : fSign w = false) : fRank w = ⊤ := by
  simp [fRank, h, hs]

theorem fRank_lt_top (w : Word) (h : isInf w = false) : fRank w < ⊤ := by
  rw [fRank_of_not_inf w h]
  exact WithBot.coe_lt_coe.2 (WithTop.coe_lt_top _)

theorem bot_lt_fRank (w : Word) (h : isInf w = false) : ⊥ < fRank w := by
  rw [fRank_of_not_inf w h]
  exact WithBot.bot_lt_coe _

/-- `fgt` is the order of the ranks, and false for a NaN. -/
theorem fgt_iff_fRank_lt (a b : Word) : fgt a b = true ↔ isNaN a = false ∧ isNaN b = false ∧ fRank b < fRank a := by
  cases ha : isInf a with
  | false =>
    cases hb : isInf b with
    | false => simp [fgt, ha, hb, fRank_of_not_inf, and_assoc]
    | true =>
      cases hs : fSign b with
      | false => simp [fgt, ha, hb, hs, fRank_of_pos_inf]
      | true => simp [fgt, ha, hb, hs, fRank_of_neg_inf, bot_lt_fRank]
  | true =>
    cases hs : fSign a with
    | true => simp [fgt, ha, hs, fRank_of_neg_inf]
    | false =>
      cases hb : isInf b with
      | false => simp [fgt, ha, hs, hb, fRank_of_pos_inf, fRank_lt_top]
      | true => cases hs' : fSign b <;> simp [fgt, ha, hs, hb, hs', fRank_of_pos_inf, fRank_of_neg_inf]

/-- What `v` exceeds, every pattern that is not below `v` exceeds. -/
theorem fgt_of_not_fgt_of_fgt (v w t : Word) (hv : isNaN v = false) (hw : isNaN w = false) (hvw : fgt v w = false)
    (hvt : fgt v t = true) : fgt w t = true := by
  obtain ⟨-, ht, hlt⟩ := (fgt_iff_fRank_lt v t).1 hvt
  have hle : fRank v ≤ fRank w := by
    simpa [hv, hw] using mt (fgt_iff_fRank_lt v w).2 (ne_true_of_eq_false hvw)
  exact (fgt_iff_fRank_lt w t).2 ⟨hw, ht, hlt.trans_le hle⟩

/-- A pattern that exceeds `t` exceeds every pattern that is not above `t`. -/
theorem fgt_of_fgt_of_not_fgt (v t u : Word) (ht : isNaN t = false) (hu : isNaN u = false) (hvt : fgt v t = true)
    (hut : fgt u t = false) : fgt v u = true := by
  obtain ⟨hv, -, hlt⟩ := (fgt_iff_fRank_lt v t).1 hvt
  have hle : fRank u ≤ fRank t := by
    simpa [hu, ht] using mt (fgt_iff_fRank_lt u t).2 (ne_true_of_eq_false hut)
  exact (fgt_iff_fRank_lt v u).2 ⟨hv, hu, hle.trans_lt hlt⟩

/-- An infinity is no NaN (R8). -/
theorem not_isNaN_of_isInf (v : Word) (h : isInf v = true) : isNaN v = false := by
  obtain ⟨-, hfrac⟩ : fExp v = 255 ∧ fFrac v = 0 := by simpa [isInf] using h
  simp [isNaN, hfrac]

/-- A NaN exceeds nothing (R6). -/
theorem fgt_of_isNaN (v t : Word) (h : isNaN v = true) : fgt v t = false := by
  simp [fgt, h]

/-- The plus infinity exceeds every finite pattern (R6). -/
theorem fgt_of_pos_inf (v t : Word) (h : isInf v = true) (hs : fSign v = false) (ht : isNonNegFinite t = true) :
    fgt v t = true := by
  obtain ⟨-, -, htNaN, htInf⟩ := of_isNonNegFinite t ht
  exact (fgt_iff_fRank_lt v t).2 ⟨not_isNaN_of_isInf v h, htNaN, fRank_of_pos_inf v h hs ▸ fRank_lt_top t htInf⟩

/-- A pattern with the sign bit exceeds no pattern without it, `-0` and `+0` included (R8). -/
theorem fgt_of_sign (v t : Word) (h : fSign v = true) (ht : isNonNegFinite t = true) : fgt v t = false := by
  obtain ⟨-, htSign, -, htInf⟩ := of_isNonNegFinite t ht
  have hnum : fNum v ≤ fNum t := by
    rw [fNum_of_sign v h, fNum_of_not_sign t htSign]
    omega
  simp [fgt, h, htInf, hnum]

theorem fval_of_not_sign (w : Word) (h : fSign w = false) : fval w = (fMag w : Rat) / 2 ^ 149 := by
  rw [fval, fNum_of_not_sign w h, Int.cast_natCast]

/-- Non-negative patterns compare as their magnitudes (R8). -/
theorem fval_lt_iff_fMag_lt (a b : Word) (ha : fSign a = false) (hb : fSign b = false) :
    fval a < fval b ↔ fMag a < fMag b := by
  rw [fval_lt_iff, fNum_of_not_sign a ha, fNum_of_not_sign b hb, Nat.cast_lt]

theorem fval_le_iff_fMag_le (a b : Word) (ha : fSign a = false) (hb : fSign b = false) :
    fval a ≤ fval b ↔ fMag a ≤ fMag b := by
  rw [fval_le_iff, fNum_of_not_sign a ha, fNum_of_not_sign b hb, Nat.cast_le]

theorem fgt_iff_fMag_lt (a b : Word) (ha : isNonNegFinite a = true) (hb : isNonNegFinite b = true) :
    fgt a b = true ↔ fMag b < fMag a := by
  obtain ⟨haFin, haSign, -⟩ := of_isNonNegFinite a ha
  obtain ⟨hbFin, hbSign, -⟩ := of_isNonNegFinite b hb
  rw [fgt_finite a b haFin hbFin, decide_eq_true_eq, fval_lt_iff_fMag_lt b a hbSign haSign]

/-! ## The end of an initial segment, by counting and by binary search -/

/-- If what satisfies a predicate is an initial segment of 1..m, the segment ends at the number of its members. -/
theorem le_countP_range'_iff (p : Nat → Bool) (m : Nat)
    (hp : ∀ i j, 1 ≤ i → i ≤ j → j ≤ m → p j = true → p i = true) (i : Nat) (hi : 1 ≤ i) (him : i ≤ m) :
    i ≤ (List.range' 1 m).countP p ↔ p i = true := by
  induction m generalizing i with
  | zero => omega
  | succ m ih =>
    have hlen : (List.range' 1 m).countP p ≤ m := by simpa using List.countP_le_length (p := p) (l := List.range' 1 m)
    have hstep : (List.range' 1 (m + 1)).countP p = (List.range' 1 m).countP p + if p (m + 1) then 1 else 0 := by
      rw [List.range'_1_concat, List.countP_append, List.countP_singleton, Nat.add_comm 1 m]
    have ih' := ih fun i j h1 hij hjm => hp i j h1 hij (by omega)
    rw [hstep]
    cases hlast : p (m + 1) with
    | true =>
      have hall : m ≤ (List.range' 1 m).countP p := by
        obtain rfl | hm := Nat.eq_zero_or_pos m
        · exact Nat.zero_le _
        · exact (ih' m hm le_rfl).2 (hp m (m + 1) hm (by omega) le_rfl hlast)
      exact iff_of_true (by simp only [if_true]; omega) (hp i (m + 1) hi him le_rfl hlast)
    | false =>
      obtain hlt | rfl := Nat.lt_or_eq_of_le him
      · simpa using ih' i hi (by omega)
      · simp only [hlast, Bool.false_eq_true, if_false, iff_false]
        omega

/-- The steps of a binary search below `2 ^ k`: `2 ^ (k - 1)`, …, 2, 1. -/
def searchSteps : Nat → List Nat
  | 0 => []
  | k + 1 => 2 ^ k :: searchSteps k

/-- The search of R85 over a predicate that holds exactly on 1..c finds `c`, if `c` is below the sum of where it starts and
what its steps can still reach. -/
theorem foldl_searchSteps (p : Nat → Bool) (c m : Nat) (hp : ∀ i, 1 ≤ i → i < m → (p i = true ↔ i ≤ c))
    (k n : Nat) (hn : n ≤ c) (hc : c < n + 2 ^ k) (hm : n + 2 ^ k ≤ m) :
    (searchSteps k).foldl (fun n k => if p (n + k) then n + k else n) n = c := by
  induction k generalizing n with
  | zero =>
    simp only [Nat.pow_zero] at hc
    simp only [searchSteps, List.foldl_nil]
    omega
  | succ k ih =>
    have hpos := Nat.two_pow_pos k
    have hstep := hp (n + 2 ^ k) (by omega) (by omega)
    rw [Nat.pow_succ] at hc hm
    simp only [searchSteps, List.foldl_cons]
    split
    · next h => exact ih _ (hstep.1 h) (by omega) (by omega)
    · next h => exact ih _ hn (Nat.lt_of_not_le (mt hstep.2 h)) (by omega)

/-! ## The entries of an admissible table (R82, R83) -/

theorem dir_isNonNegFinite (g : GammaRom) (hg : admissible g = true) (i : Fin 256) :
    isNonNegFinite g.dir[i] = true ∧ fMag g.dir[i] ≤ 2 ^ 149 := by
  obtain ⟨h, -⟩ := (admissible_iff g).1 hg
  exact h i

theorem inv_isNonNegFinite (g : GammaRom) (hg : admissible g = true) (i : Fin 256) (hi : i ≠ 0) :
    isNonNegFinite g.inv[i] = true := by
  obtain ⟨-, -, -, -, -, h, -⟩ := (admissible_iff g).1 hg
  exact h i hi

/-- The direct value of a code exceeds exactly the thresholds up to the code: this is what makes the tables inverse to each
other (R83). -/
theorem fgt_dir_inv_iff (g : GammaRom) (hg : admissible g = true) (i j : Fin 256) (hj : j ≠ 0) :
    fgt g.dir[i] g.inv[j] = true ↔ j ≤ i := by
  rw [fgt_iff_fMag_lt _ _ (dir_isNonNegFinite g hg i).1 (inv_isNonNegFinite g hg j hj)]
  obtain hji | hij := le_or_gt j i
  · have hi : i ≠ 0 := fun h => hj (le_antisymm (h ▸ hji) (Fin.zero_le j))
    exact iff_of_true ((inv_mono g hg j i hj hji).trans_lt (inv_lt_dir g hg i hi)) hji
  · exact iff_of_false (dir_le_inv g hg i j hij).not_gt hij.not_ge

/-- The direct values strictly increase: between two of them lies the threshold of the higher one. -/
theorem dir_strictMono (g : GammaRom) (hg : admissible g = true) (i j : Fin 256) (hij : i < j) :
    fMag g.dir[i] < fMag g.dir[j] :=
  (dir_le_inv g hg i j hij).trans_lt (inv_lt_dir g hg j (Fin.ne_zero_of_lt hij))

/-- A value that exceeds a threshold exceeds every threshold of a lower code (R83 (e)). -/
theorem fgt_inv_antitone (g : GammaRom) (hg : admissible g = true) (v : Word) (i j : Fin 256) (hi : i ≠ 0) (hij : i ≤ j)
    (h : fgt v g.inv[j] = true) : fgt v g.inv[i] = true := by
  have hj : j ≠ 0 := fun h0 => hi (le_antisymm (h0 ▸ hij) (Fin.zero_le i))
  have hi' := inv_isNonNegFinite g hg i hi
  have hj' := inv_isNonNegFinite g hg j hj
  obtain ⟨-, -, hiNaN, -⟩ := of_isNonNegFinite _ hi'
  obtain ⟨-, -, hjNaN, -⟩ := of_isNonNegFinite _ hj'
  have hnot : fgt g.inv[i] g.inv[j] = false := by
    rw [← Bool.not_eq_true, fgt_iff_fMag_lt _ _ hi' hj']
    exact (inv_mono g hg i j hi hij).not_gt
  exact fgt_of_fgt_of_not_fgt v _ _ hjNaN hiNaN h hnot

/-! ## The two samplings (R84, R85) -/

/-- The forward sampling reads the direct table at the code (R84). -/
theorem s2lValue_val (g : GammaRom) (i : Fin 256) : s2lValue g i = g.dir[i] := by
  simp [s2lValue, memRead]

theorem exceeds_val (g : GammaRom) (v : Word) (i : Fin 256) : exceeds g v i = fgt v g.inv[i] := by
  simp [exceeds, memRead]

/-- A code is an integer 0..255 (R85). -/
theorem l2sCode_le (g : GammaRom) (v : Word) : l2sCode g v ≤ 255 := by
  simpa [l2sCode] using List.countP_le_length (p := exceeds g v) (l := List.range' 1 255)

/-- The thresholds that a value exceeds are exactly those from 1 to its code (R85). -/
theorem fgt_inv_iff (g : GammaRom) (hg : admissible g = true) (v : Word) (i : Fin 256) (hi : i ≠ 0) :
    fgt v g.inv[i] = true ↔ (i : Nat) ≤ l2sCode g v := by
  rw [← exceeds_val]
  refine (le_countP_range'_iff (exceeds g v) 255 (fun a b ha hab hb h => ?_) i ?_ ?_).symm
  · rw [exceeds_val g v ⟨b, by omega⟩] at h
    rw [exceeds_val g v ⟨a, by omega⟩]
    exact fgt_inv_antitone g hg v ⟨a, by omega⟩ ⟨b, by omega⟩ (Fin.ne_zero_of_lt (a := 0) ha) hab h
  · exact Nat.pos_of_ne_zero fun h => hi (Fin.ext h)
  · omega

/-- Sampling forward and back gives the code again (R83). -/
theorem l2sCode_dir (g : GammaRom) (hg : admissible g = true) (i : Fin 256) : l2sCode g g.dir[i] = i := by
  have hle := l2sCode_le g g.dir[i]
  refine eq_of_forall_le_iff fun c => ?_
  obtain rfl | hpos := Nat.eq_zero_or_pos c
  · exact iff_of_true (Nat.zero_le _) (Nat.zero_le _)
  · obtain hc | hc := Nat.lt_or_ge c 256
    · have hne : (⟨c, hc⟩ : Fin 256) ≠ 0 := Fin.ne_zero_of_lt (a := 0) hpos
      exact (fgt_inv_iff g hg _ _ hne).symm.trans (fgt_dir_inv_iff g hg i _ hne)
    · exact iff_of_false (by omega) (by omega)

/-- The eight steps of R85 are the search below `2 ^ 8`. -/
theorem l2sSearch_eq_foldl (g : GammaRom) (v : Word) :
    l2sSearch g v = (searchSteps 8).foldl (fun n k => if exceeds g v (n + k) then n + k else n) 0 := rfl

/-- The binary search finds the same code (R85): it looks for the end of the same initial segment. -/
theorem l2sSearch_eq_l2sCode (g : GammaRom) (hg : admissible g = true) (v : Word) : l2sSearch g v = l2sCode g v := by
  have hle := l2sCode_le g v
  rw [l2sSearch_eq_foldl]
  refine foldl_searchSteps (exceeds g v) (l2sCode g v) 256 (fun i hi him => ?_) 8 0 (Nat.zero_le _) (by omega) le_rfl
  rw [exceeds_val g v ⟨i, him⟩]
  exact fgt_inv_iff g hg v ⟨i, him⟩ (Fin.ne_zero_of_lt (a := 0) hi)

/-- A value that does not exceed the first threshold has code 0. -/
theorem l2sCode_eq_zero (g : GammaRom) (hg : admissible g = true) (v : Word) (h : fgt v g.inv[(1 : Fin 256)] = false) :
    l2sCode g v = 0 := by
  have hlt := mt (fgt_inv_iff g hg v 1 (by decide)).2 (ne_true_of_eq_false h)
  exact Nat.lt_one_iff.1 (Nat.lt_of_not_le hlt)

/-- A value that exceeds the last threshold has code 255. -/
theorem l2sCode_eq_255 (g : GammaRom) (hg : admissible g = true) (v : Word) (h : fgt v g.inv[(255 : Fin 256)] = true) :
    l2sCode g v = 255 :=
  le_antisymm (l2sCode_le g v) ((fgt_inv_iff g hg v 255 (by decide)).1 h)

/-- A finite value of 1 or more exceeds every threshold, since every threshold lies below a direct value (R82, R83). -/
theorem fgt_inv_of_one_le (g : GammaRom) (hg : admissible g = true) (v : Word) (i : Fin 256) (hi : i ≠ 0)
    (hv : isFinite v = true) (h1 : 1 ≤ fval v) : fgt v g.inv[i] = true := by
  obtain ⟨hFin, hSign, -⟩ := of_isNonNegFinite _ (inv_isNonNegFinite g hg i hi)
  have hone := (one_le_fval_iff v).1 h1
  have hlt := inv_lt_dir g hg i hi
  have hle := (dir_isNonNegFinite g hg i).2
  rw [fgt_finite v _ hv hFin, decide_eq_true_eq, fval_lt_iff, fNum_of_not_sign _ hSign]
  omega

/-- Whatever threshold `v` exceeds, `w` exceeds too, so `w` counts no fewer of them (D22). -/
theorem l2sCode_mono (g : GammaRom) (v w : Word) (hv : isNaN v = false) (hw : isNaN w = false)
    (hvw : fgt v w = false) : l2sCode g v ≤ l2sCode g w :=
  List.countP_mono_left fun _ _ h => fgt_of_not_fgt_of_fgt v w _ hv hw hvw h

/-! ## The statements -/

/-- Settles O35: the value is the entry of the direct table, whose two ends R82 (b) fixes. -/
theorem s2lCommand : Obligations.S2lCommand := by
  intro rd ra s
  obtain ⟨t, hexec, hframe, hread⟩ := exec_spec_of_writeReg (.s2l rd ra) rd (s2lValue gammaRom (s.ch ra)) s rfl
  have hentry : ∀ i : Fin 256, s.ch ra = i → t.readReg rd = gammaRom.dir[i] := fun i h => by
    rw [hread, h, s2lValue_val]
  obtain ⟨h0, -⟩ := dir_fixed gammaRom gammaRom_admissible 0
  obtain ⟨-, h255, -⟩ := dir_fixed gammaRom gammaRom_admissible 255
  exact ⟨fun w => decode_eq_ok_iff w _, t, hexec, hframe, hentry, fun h => (hentry 0 h).trans (h0 rfl),
    fun h => (hentry 255 h).trans (h255 rfl)⟩

/-- Settles O36: the code counts an initial segment of the thresholds, and its ends come from the first and the last of
them. -/
theorem l2sCommand : Obligations.L2sCommand := by
  intro rd ra s
  have hg := gammaRom_admissible
  obtain ⟨t, hexec, hframe, hread⟩ :=
    exec_spec_of_writeReg (.l2s rd ra) rd (zext32 (l2sCode gammaRom (s.readReg ra))) s rfl
  refine ⟨fun w => decode_eq_ok_iff w _, t, _, hexec, hframe, hread, l2sCode_le .., fgt_inv_iff gammaRom hg _,
    l2sSearch_eq_l2sCode gammaRom hg _, fun h => l2sCode_eq_zero gammaRom hg _ ?zero,
    fun hs h => l2sCode_eq_255 gammaRom hg _ ?one⟩
  case zero =>
    obtain hNaN | hSign := h
    · exact fgt_of_isNaN _ _ hNaN
    · exact fgt_of_sign _ _ hSign (inv_isNonNegFinite gammaRom hg 1 (by decide))
  case one =>
    obtain hInf | ⟨hFin, h1⟩ := h
    · exact fgt_of_pos_inf _ _ hInf hs (inv_isNonNegFinite gammaRom hg 255 (by decide))
    · exact fgt_inv_of_one_le gammaRom hg _ 255 (by decide) hFin h1

/-- Settles O37. -/
theorem binarySearchEqualsCount : Obligations.BinarySearchEqualsCount := l2sSearch_eq_l2sCode

/-- Settles O38: the second command reads the entry that the first one wrote. -/
theorem gammaRoundTrip : Obligations.GammaRoundTrip := by
  intro rd ra re s
  obtain ⟨i, hi⟩ : ∃ i : Fin 256, s.ch ra = i := ⟨⟨s.ch ra, Nat.lt_succ_of_le (s.ch_le ra)⟩, rfl⟩
  obtain ⟨t, hs2l, -, hread⟩ := exec_spec_of_writeReg (.s2l rd ra) rd (s2lValue gammaRom (s.ch ra)) s rfl
  obtain ⟨u, hl2s, -, hread'⟩ :=
    exec_spec_of_writeReg (.l2s re rd) re (zext32 (l2sCode gammaRom (t.readReg rd))) t rfl
  refine ⟨t, u, hs2l, hl2s, ?_⟩
  rw [hread', hread, hi, s2lValue_val, l2sCode_dir gammaRom gammaRom_admissible]

/-- Settles O39. -/
theorem inverseSamplingIsMonotone : Obligations.InverseSamplingIsMonotone := l2sCode_mono

/-- Settles O40: all entries are non-negative, so every comparison of values is one of magnitudes. -/
theorem instanceTablesMeetTheConstraints : Obligations.InstanceTablesMeetTheConstraints := by
  have hg := gammaRom_admissible
  have hdir (i : Fin 256) := of_isNonNegFinite _ (dir_isNonNegFinite gammaRom hg i).1
  have hinv (i : Fin 256) (hi : i ≠ 0) := of_isNonNegFinite _ (inv_isNonNegFinite gammaRom hg i hi)
  obtain ⟨h0, -⟩ := dir_fixed gammaRom hg 0
  obtain ⟨-, h255, -⟩ := dir_fixed gammaRom hg 255
  obtain ⟨-, -, h128⟩ := dir_fixed gammaRom hg 128
  refine ⟨fun i => ?unit, h0 rfl, h255 rfl, ?middle, fun i j hij => ?strict, fun i hi => ?below,
    fun i j hi hij => ?rises, fun i j hij => ?above⟩
  case unit =>
    obtain ⟨hFin, hSign, -⟩ := hdir i
    rw [fval_of_not_sign _ hSign, div_le_one (by norm_num)]
    exact ⟨hFin, hSign, by positivity, by exact_mod_cast (dir_isNonNegFinite gammaRom hg i).2⟩
  case middle =>
    obtain ⟨-, hSign, -⟩ := hdir 128
    refine (fval_of_not_sign _ hSign).trans_lt ((div_lt_div_iff₀ (by norm_num) (by norm_num)).2 ?_)
    exact_mod_cast h128 rfl
  case strict =>
    obtain ⟨-, hi, -⟩ := hdir i
    obtain ⟨-, hj, -⟩ := hdir j
    exact (fval_lt_iff_fMag_lt _ _ hi hj).2 (dir_strictMono gammaRom hg i j hij)
  case below =>
    obtain ⟨hFin, hSign, -⟩ := hinv i hi
    obtain ⟨-, hSign', -⟩ := hdir i
    exact ⟨hFin, hSign, (fval_lt_iff_fMag_lt _ _ hSign hSign').2 (inv_lt_dir gammaRom hg i hi)⟩
  case rises =>
    obtain ⟨-, hSign, -⟩ := hinv i hi
    obtain ⟨-, hSign', -⟩ := hinv j (Fin.ne_zero_of_lt ((Fin.pos_of_ne_zero hi).trans_le hij))
    exact (fval_le_iff_fMag_le _ _ hSign hSign').2 (inv_mono gammaRom hg i j hi hij)
  case above =>
    obtain ⟨-, hSign, -⟩ := hdir i
    obtain ⟨-, hSign', -⟩ := hinv j (Fin.ne_zero_of_lt hij)
    exact (fval_le_iff_fMag_le _ _ hSign hSign').2 (dir_le_inv gammaRom hg i j hij)

end Sys2Proof.Machine
end

section
/-! SUPPORT. The quantizer (42_quantize.md). On a finite, non-negative pattern `Quantize` is the floor of the clamped value,
scaled; that one equation gives the range and every threshold. The integer recipe of R92 is the same quotient with a common
power of two cancelled. -/

namespace Sys2Proof.Machine

/-! ## `Quantize`, line by line (R90) -/

theorem not_isNaN_of_isFinite (w : Word) (h : isFinite w = true) : isNaN w = false := by
  have hexp : fExp w ≠ 255 := by simpa [isFinite] using h
  simp [isNaN, hexp]

theorem not_isInf_of_isFinite (w : Word) (h : isFinite w = true) : isInf w = false := by
  have hexp : fExp w ≠ 255 := by simpa [isFinite] using h
  simp [isInf, hexp]

theorem quantize_of_isNaN (w : Word) (h : isNaN w = true) : quantize w = 0 := by
  simp [quantize, h]

/-- The sign bit alone gives 0, for a NaN by the first line and for the rest by the second. -/
theorem quantize_of_sign (w : Word) (h : fSign w = true) : quantize w = 0 := by
  simp [quantize, h]

theorem quantize_of_pos_inf (w : Word) (h : isInf w = true) (hs : fSign w = false) : quantize w = 255 := by
  simp [quantize, not_isNaN_of_isInf w h, h, hs]

/-- The last two lines, in units of 2^-149. -/
theorem quantize_of_isFinite (w : Word) (h : isFinite w = true) (hs : fSign w = false) :
    quantize w = if 2 ^ 149 ≤ fMag w then 255 else (fMag w * 510 + 2 ^ 149) / 2 ^ 150 := by
  simp [quantize, not_isNaN_of_isFinite w h, not_isInf_of_isFinite w h, hs]

/-- The result is a channel, 0..255: a magnitude below 1 leaves the quotient of the last line below 256 (R90). -/
theorem quantize_le (w : Word) : quantize w ≤ 255 := by
  unfold quantize
  split_ifs <;> omega

/-! ## `Quantize` on the exact value (R90) -/

theorem fval_nonneg (w : Word) (hs : fSign w = false) : 0 ≤ fval w := by
  rw [fval_of_not_sign w hs]
  positivity

/-- A value of 1 or more has the sign bit 0. -/
theorem not_fSign_of_one_le (w : Word) (h1 : 1 ≤ fval w) : fSign w = false := by
  rw [one_le_fval_iff] at h1
  by_contra hs
  rw [fNum_of_sign w (by simpa using hs)] at h1
  omega

theorem one_le_fval_iff_fMag (w : Word) (hs : fSign w = false) : 1 ≤ fval w ↔ 2 ^ 149 ≤ fMag w := by
  rw [one_le_fval_iff, fNum_of_not_sign w hs]
  exact_mod_cast Iff.rfl

theorem quantize_of_one_le (w : Word) (h : isFinite w = true) (h1 : 1 ≤ fval w) : quantize w = 255 := by
  have hs := not_fSign_of_one_le w h1
  rw [quantize_of_isFinite w h hs, if_pos ((one_le_fval_iff_fMag w hs).1 h1)]

/-- Below 1 the quotient of the magnitudes. -/
theorem quantize_of_lt_one (w : Word) (h : isFinite w = true) (hs : fSign w = false) (h1 : fval w < 1) :
    quantize w = (fMag w * 510 + 2 ^ 149) / 2 ^ 150 := by
  rw [quantize_of_isFinite w h hs, if_neg (mt (one_le_fval_iff_fMag w hs).2 h1.not_ge)]

/-- That quotient is the floor of the exact value times 255 plus one half: nothing is rounded before the floor (D19). -/
theorem quantize_eq_floor (w : Word) (h : isFinite w = true) (hs : fSign w = false) (h1 : fval w < 1) :
    (quantize w : Int) = ⌊fval w * 255 + 1 / 2⌋ := by
  have hscale : fval w * 255 + 1 / 2 = ((fMag w * 510 + 2 ^ 149 : Nat) : Rat) / ((2 ^ 150 : Nat) : Rat) := by
    rw [fval_of_not_sign w hs]
    push_cast
    ring
  rw [hscale, Rat.floor_natCast_div_natCast, quantize_of_lt_one w h hs h1]
  rfl

/-- The last two lines of R90 as one: the value is clamped, then scaled and rounded half up. -/
theorem quantize_eq_floor_clamp (w : Word) (h : isFinite w = true) (hs : fSign w = false) :
    (quantize w : Int) = ⌊max 0 (min (fval w) 1) * 255 + 1 / 2⌋ := by
  rw [max_eq_right (le_min (fval_nonneg w hs) zero_le_one)]
  obtain h1 | h1 := le_or_gt 1 (fval w)
  · rw [min_eq_right h1, quantize_of_one_le w h h1, eq_comm, Int.floor_eq_iff]
    norm_num
  · rw [min_eq_left h1.le, quantize_eq_floor w h hs h1]

/-- Every threshold at once: `Quantize` reaches the code `j` at the value `(j - 1/2)/255`. -/
theorem le_quantize_iff (w : Word) (h : isFinite w = true) (hs : fSign w = false) (j : Nat) (hj : j ≤ 255) :
    j ≤ quantize w ↔ ((j : Rat) - 1 / 2) / 255 ≤ fval w := by
  have hj' : (j : Rat) ≤ 255 := by exact_mod_cast hj
  rw [div_le_iff₀ (by norm_num), sub_le_iff_le_add]
  obtain h1 | h1 := le_or_gt 1 (fval w)
  · rw [quantize_of_one_le w h h1]
    exact iff_of_true hj (by linarith)
  · rw [← Nat.cast_le (α := Int), quantize_eq_floor w h hs h1, Int.le_floor, Int.cast_natCast]

theorem quantize_eq_iff (w : Word) (h : isFinite w = true) (hs : fSign w = false) (k : Nat) (hk : k ≤ 254) :
    quantize w = k ↔ ((k : Rat) - 1 / 2) / 255 ≤ fval w ∧ fval w < ((k : Rat) + 1 / 2) / 255 := by
  have hnext : ((k : Rat) + 1 / 2) / 255 = (((k + 1 : Nat) : Rat) - 1 / 2) / 255 := by
    push_cast
    ring
  rw [hnext, ← not_le, ← le_quantize_iff w h hs k (by omega), ← le_quantize_iff w h hs (k + 1) (by omega)]
  omega

theorem quantize_eq_zero_iff (w : Word) (h : isFinite w = true) (hs : fSign w = false) :
    quantize w = 0 ↔ fval w < 1 / 510 := by
  have hfirst : 1 ≤ quantize w ↔ 1 / 510 ≤ fval w := (le_quantize_iff w h hs 1 (by omega)).trans (by norm_num)
  rw [← not_le, ← hfirst]
  omega

theorem quantize_eq_255_iff (w : Word) (h : isFinite w = true) (hs : fSign w = false) :
    quantize w = 255 ↔ 509 / 510 ≤ fval w := by
  have hlast : 255 ≤ quantize w ↔ 509 / 510 ≤ fval w := (le_quantize_iff w h hs 255 le_rfl).trans (by norm_num)
  have hle := quantize_le w
  rw [← hlast]
  omega

/-! ## The integer recipe (R92) -/

/-- The mantissa `M` of R92: the fraction, with the hidden bit where the pattern is normal (R8). -/
def fMant (w : Word) : Nat := if fExp w = 0 then fFrac w else 2 ^ 23 + fFrac w

/-- The places that the mantissa stands behind the point, `-E` of R92. -/
def fShift (w : Word) : Nat := if fExp w = 0 then 149 else 150 - fExp w

theorem fMant_lt (w : Word) : fMant w < 2 ^ 24 := by
  have hfrac : fFrac w < 2 ^ 23 := BitVec.isLt _
  unfold fMant
  split <;> omega

/-- A non-negative value below 1 has a biased exponent of at most 126 (R92). -/
theorem fExp_le_of_lt_one (w : Word) (hs : fSign w = false) (h1 : fval w < 1) : fExp w ≤ 126 := by
  by_contra hexp
  have hpow : 2 ^ 126 ≤ 2 ^ (fExp w - 1) := Nat.pow_le_pow_right (by omega) (by omega)
  have hmag : 2 ^ 23 * 2 ^ 126 ≤ fMag w := by
    rw [fMag, if_neg (by omega)]
    exact Nat.mul_le_mul (Nat.le_add_right ..) hpow
  exact h1.not_ge ((one_le_fval_iff_fMag w hs).2 hmag)

theorem fShift_mem_range (w : Word) (hexp : fExp w ≤ 126) : 24 ≤ fShift w ∧ fShift w ≤ 149 := by
  unfold fShift
  split <;> omega

/-- The magnitude in units of 2^-149 is the mantissa, moved up by what the exponent leaves of the 149 places (R8, R92). -/
theorem fMag_eq_fMant_mul (w : Word) (hexp : fExp w ≤ 126) : fMag w = fMant w * 2 ^ (149 - fShift w) := by
  unfold fMag fMant fShift
  split
  · simp
  · rw [show 149 - (150 - fExp w) = fExp w - 1 by omega]

theorem fval_eq_fMant_div (w : Word) (hs : fSign w = false) (hexp : fExp w ≤ 126) :
    fval w = (fMant w : Rat) / 2 ^ fShift w := by
  obtain ⟨-, hshift⟩ := fShift_mem_range w hexp
  rw [fval_of_not_sign w hs, fMag_eq_fMant_mul w hexp, div_eq_div_iff (by positivity) (by positivity)]
  push_cast
  rw [mul_assoc, ← pow_add, Nat.sub_add_cancel hshift]

/-- Scaling both sides of the recipe by `2 ^ (d + 1)` gives the quotient in units of 2^-149. -/
theorem recipe_scale (m k d : Nat) (hk : 0 < k) (hkd : k + d = 149) :
    (m * 2 ^ d * 510 + 2 ^ 149) / 2 ^ 150 = (m * 255 + 2 ^ (k - 1)) / 2 ^ k := by
  have hnum : m * 2 ^ d * 510 + 2 ^ 149 = (m * 255 + 2 ^ (k - 1)) * 2 ^ (d + 1) := by
    rw [add_mul, ← pow_add, show k - 1 + (d + 1) = 149 by omega, pow_succ]
    ring
  have hden : 2 ^ 150 = 2 ^ k * 2 ^ (d + 1) := by rw [← pow_add, ← add_assoc, hkd]
  rw [hnum, hden, Nat.mul_div_mul_right _ _ (Nat.two_pow_pos _)]

/-- From 33 places on the product and the half together stay below the divisor (R92). -/
theorem recipe_eq_zero (m k : Nat) (hm : m * 255 < 2 ^ 32) (hk : 33 ≤ k) : (m * 255 + 2 ^ (k - 1)) / 2 ^ k = 0 := by
  refine Nat.div_eq_of_lt ?_
  calc m * 255 + 2 ^ (k - 1)
    _ < 2 ^ 32 + 2 ^ (k - 1) := Nat.add_lt_add_right hm _
    _ ≤ 2 ^ (k - 1) + 2 ^ (k - 1) := Nat.add_le_add_right (Nat.pow_le_pow_right (by omega) (by omega)) _
    _ = 2 ^ k := Nat.two_pow_pred_add_two_pow_pred (by omega)

/-! ## The statements -/

/-- Settles O42: the floor of the clamped value, and the thresholds that follow from it. -/
theorem quantizeIsExact : Obligations.QuantizeIsExact := by
  intro w
  exact ⟨quantize_le w, quantize_of_isNaN w, fun _ => quantize_of_sign w, fun _ hs hInf => quantize_of_pos_inf w hInf hs,
    fun hFin hs => ⟨quantize_eq_floor_clamp w hFin hs, quantize_of_one_le w hFin, quantize_eq_floor w hFin hs,
      fun k _ hk => quantize_eq_iff w hFin hs k hk, quantize_eq_zero_iff w hFin hs, quantize_eq_255_iff w hFin hs⟩⟩

/-- Settles O43: the mantissa and the places of R8, and the quotient with the common power of two cancelled. -/
theorem quantizeIntegerRecipe : Obligations.QuantizeIntegerRecipe := by
  intro w hFin hs h1
  have hexp := fExp_le_of_lt_one w hs h1
  obtain ⟨hlow, hhigh⟩ := fShift_mem_range w hexp
  have hproduct : fMant w * 255 < 2 ^ 32 := by
    have hmant := fMant_lt w
    omega
  have hquot : quantize w = (fMant w * 255 + 2 ^ (fShift w - 1)) / 2 ^ fShift w := by
    rw [quantize_of_lt_one w hFin hs h1, fMag_eq_fMant_mul w hexp]
    exact recipe_scale _ _ _ (by omega) (by omega)
  refine ⟨fMant w, fShift w, fun h0 => ⟨if_pos h0, if_pos h0⟩, fun h0 => ⟨if_neg h0, ?places⟩, hexp, hlow,
    fval_eq_fMant_div w hs hexp, hproduct, hquot, fun h33 => hquot.trans (recipe_eq_zero _ _ hproduct h33)⟩
  case places =>
    rw [fShift, if_neg h0]
    omega

/-- Settles O41: the value is `Quantize` of the whole word, whose lines O42 gives on the exact value. -/
theorem qntCommand : Obligations.QntCommand := by
  intro rd ra s
  obtain ⟨t, hexec, hframe, hread⟩ :=
    exec_spec_of_writeReg (.qnt rd ra) rd (zext32 (quantize (s.readReg ra))) s rfl
  exact ⟨fun w => decode_eq_ok_iff w _, t, _, hexec, hframe, hread, rfl, quantize_le _, quantize_of_isNaN _,
    quantize_of_sign _, quantize_of_pos_inf _, quantize_of_one_le _, quantize_eq_floor _⟩

end Sys2Proof.Machine
end

section
/-! SUPPORT. The data movement commands (43_move_out.md). Both loads write a word put together from two 16-bit halves, `LDI`
with an upper half of 0; the half-word statements are what the two extractions read back from such a word. -/

namespace Sys2Proof.Machine

/-! ## The halves of the word that is written -/

/-- A zero-extended immediate is a word whose upper half is 0 (R6, R95). -/
theorem zext32_eq_zero_append (imm : Imm16) : zext32 imm.toNat = 0#16 ++ imm := by
  rw [zext32, BitVec.ofNat_toNat, BitVec.setWidth_eq_append (by decide)]
  rfl

/-- The number of a word put together from two halves (R96). -/
theorem toNat_append_half (hi lo : Imm16) : (hi ++ lo).toNat = hi.toNat * 2 ^ 16 + lo.toNat := by
  rw [BitVec.toNat_append, ← Nat.shiftLeft_add_eq_or_of_lt lo.isLt, Nat.shiftLeft_eq]

/-- The channel view of an immediate is its low 8 bits (R11, R95). -/
theorem chanOf_zext32_imm (imm : Imm16) : chanOf (zext32 imm.toNat) = imm.toNat % 256 := by
  rw [chanOf_eq_mod, toNat_zext32 _ (imm.isLt.trans (by decide))]

/-- `LDI` of one half, then `LDIH` of the other on the same register, completes the constant (R95, R96). -/
theorem exec_ldi_ldih (rd : RegNum) (lo hi : Imm16) (s : State) :
    ∃ u v, exec (.ldi rd lo) s = .next u ∧ exec (.ldih rd hi) u = .next v ∧ v.readReg rd = hi ++ lo := by
  obtain ⟨u, hldi, -, hlow⟩ := exec_ldi_spec rd lo s
  obtain ⟨v, hldih, -, hload⟩ := exec_ldih_spec rd hi u
  exact ⟨u, v, hldi, hldih, by rw [hload, hlow, lower_zext32]⟩

/-! ## The statements -/

/-- Settles O44: the word written is the immediate below an upper half of 0. -/
theorem ldiCommand : Obligations.LdiCommand := by
  intro rd imm s
  obtain ⟨t, hexec, hframe, hread⟩ := exec_ldi_spec rd imm s
  refine ⟨fun w => decode_eq_ok_iff w _, t, hexec, hframe, ?lower, ?upper, ?channel⟩
  case lower => rw [hread, lower_zext32]
  case upper => rw [hread, zext32_eq_zero_append, BitVec.extractLsb'_append_eq_left]
  case channel => rw [State.ch, hread, chanOf_zext32_imm]

/-- Settles O45: the word written is the immediate above the old lower half, which after an `LDI` is the immediate of the
`LDI`. -/
theorem ldihCommand : Obligations.LdihCommand := by
  intro rd imm s
  obtain ⟨t, hexec, hframe, hread⟩ := exec_ldih_spec rd imm s
  refine ⟨fun w => decode_eq_ok_iff w _, t, hexec, hframe, ?number, ?upper, ?lower, fun lo => exec_ldi_ldih rd lo imm s⟩
  case number => rw [hread, toNat_append_half, BitVec.extractLsb'_toNat, Nat.shiftRight_zero]
  case upper => rw [hread, BitVec.extractLsb'_append_eq_left]
  case lower => rw [hread, BitVec.extractLsb'_append_eq_right]

/-- Settles O46: the next state is the old one with the register appended to `OUT`, every other field as it was; a faulted
block discards the word like any other. -/
theorem outCommand : Obligations.OutCommand := by
  intro ra s
  refine ⟨fun w => decode_eq_ok_iff w _, s.appendOut (s.readReg ra), rfl, s.appendOut_out _, s.appendOut_x _,
    s.appendOut_fault _, s.appendOut_fword _, ?ports, deliver_of_fault _ s⟩
  case ports => exact ⟨s.appendOut_pending _, s.appendOut_taken _, s.appendOut_received _⟩

end Sys2Proof.Machine
end

section
/-! SUPPORT. The one exception and the ways in and out of it (60_exceptions.md): which words do not decode, the exception
entry, the faulted block, reset. -/

namespace Sys2Proof

/-! ## Which words are illegal (R102) -/

/-- Every bit a row requires to be zero: its mask without the operation code (R49, R50). -/
def Opcode.mustBeZero (o : Opcode) : BitVec 24 := o.mask.extractLsb' 0 24

/-- A row's mask compares all 8 bits of the operation code and the must-be-zero bits (R49, R50). -/
theorem Opcode.mask_eq_append (o : Opcode) : o.mask = 0xFF#8 ++ o.mustBeZero := by
  cases o <;> decide

/-- Masking a word, the operation code and the 24 bits below it apart. -/
theorem and_append_mask (w : Word) (m : BitVec 8) (z : BitVec 24) :
    w &&& (m ++ z) = (opOf w &&& m) ++ (w.extractLsb' 0 24 &&& z) := by
  have hw : opOf w ++ w.extractLsb' 0 24 = w := BitVec.extractLsb'_append_extractLsb'
  conv_lhs => rw [← hw]
  exact BitVec.and_append

/-- A word with a row's operation code satisfies the row's match and mask when its must-be-zero bits are zero. -/
theorem row_iff_of_opOf (w : Word) (o : Opcode) (hop : opOf w = o.code) :
    w &&& o.mask = o.pattern ↔ w &&& (0#8 ++ o.mustBeZero) = 0#32 := by
  have hzero : (0#32 : Word) = 0#8 ++ 0#24 := rfl
  rw [o.mask_eq_append, Opcode.pattern, hzero, and_append_mask, and_append_mask, hop, BitVec.and_zero,
    show o.code &&& 0xFF#8 = o.code from BitVec.and_allOnes, BitVec.append_right_inj, BitVec.append_right_inj]

/-- Case (1) of R102: a word whose operation code is not assigned does not decode. -/
theorem decode_error_of_unassigned (w : Word) (h : ∀ o : Opcode, opOf w ≠ o.code) : ∃ e, decode w = .error e := by
  cases hd : decode w with
  | error e => exact ⟨e, rfl⟩
  | ok i =>
    obtain ⟨o, hrow, -⟩ := row_of_decode w i hd
    exact absurd (opOf_of_row w o hrow) (h o)

/-- Case (2) of R102: a word whose operation code is assigned does not decode exactly when a bit its row requires to be zero
is 1. -/
theorem decode_error_iff_of_opOf (w : Word) (o : Opcode) (hop : opOf w = o.code) :
    (∃ e, decode w = .error e) ↔ w &&& (0#8 ++ o.mustBeZero) ≠ 0#32 := by
  rw [Ne, ← row_iff_of_opOf w o hop]
  by_cases hrow : w &&& o.mask = o.pattern
  · simp [hrow, decode_of_row w o hrow]
  · simp [hrow, decode, hop]

/-- The two cases of R102, with the operation codes and the must-be-zero bits as R50 prints them. -/
def IllegalWord (w : Word) : Prop :=
  opOf w ∉ [0x10#8, 0x11#8, 0x12#8, 0x13#8, 0x18#8, 0x20#8, 0x21#8, 0x28#8, 0x30#8, 0x31#8, 0x38#8] ∨
  (opOf w ∈ [0x10#8, 0x11#8] ∧ w &&& 0x00007FFF#32 ≠ 0#32) ∨
  (opOf w ∈ [0x12#8, 0x13#8, 0x18#8] ∧ w &&& 0x00000FFF#32 ≠ 0#32) ∨
  (opOf w ∈ [0x20#8, 0x21#8, 0x28#8] ∧ w &&& 0x0003FFFF#32 ≠ 0#32) ∨
  (opOf w ∈ [0x30#8, 0x31#8] ∧ w &&& 0x001F0000#32 ≠ 0#32) ∨
  (opOf w = 0x38#8 ∧ w &&& 0x00E3FFFF#32 ≠ 0#32)

/-- The printed operation codes are those of the rows (R50). -/
theorem exists_code_of_mem (b : BitVec 8)
    (h : b ∈ [0x10#8, 0x11#8, 0x12#8, 0x13#8, 0x18#8, 0x20#8, 0x21#8, 0x28#8, 0x30#8, 0x31#8, 0x38#8]) :
    ∃ o : Opcode, b = o.code := by
  obtain ⟨o, -, ho⟩ := List.mem_map.1 (show b ∈ Opcode.all.map Opcode.code from h)
  exact ⟨o, ho.symm⟩

/-- The cases of R102 are the words that do not decode: one row at a time, or no row. -/
theorem decode_error_iff (w : Word) : (∃ e, decode w = .error e) ↔ IllegalWord w := by
  by_cases hassigned : ∃ o : Opcode, opOf w = o.code
  · obtain ⟨o, hop⟩ := hassigned
    rw [decode_error_iff_of_opOf w o hop]
    cases o <;> simp [IllegalWord, hop, Opcode.code, Opcode.mustBeZero, Opcode.mask]
  · exact iff_of_true (decode_error_of_unassigned w fun o ho => hassigned ⟨o, ho⟩)
      (.inl fun hmem => hassigned (exists_code_of_mem _ hmem))

end Sys2Proof

namespace Sys2Proof.Machine

/-! ## Delivered words and the latch (R103, R104) -/

/-- A command answers a next state and leaves the latch as it was: the part of its frame that R100 is about. -/
theorem exec_latch (i : Instr) (s : State) : ∃ t, exec i s = .next t ∧ t.fault = s.fault ∧ t.fword = s.fword := by
  obtain ⟨t, hexec, -, -, hfault, hfword, -⟩ := exec_frame i s
  exact ⟨t, hexec, hfault, hfword⟩

/-- The step for a word that does not decode is the exception entry on the state in which the word has been consumed. -/
theorem step_of_illegal (s : State) (w : Word) (rest : List HostEvent) (e : IllegalReason)
    (hp : s.pending = .deliver w :: rest) (hf : s.fault = false) (hd : decode w = .error e) :
    step s = .next (State.raiseIllegal { s with pending := rest } w) :=
  (step_cons s _ rest hp).trans (deliver_of_error w { s with pending := rest } e hf hd)

/-- A delivered word answers a next state. -/
theorem exists_deliver_next (w : Word) (s : State) : ∃ t, deliver w s = .next t :=
  let ⟨_, hdel⟩ := deliver_with_pending w s
  ⟨_, hdel s.pending⟩

/-- Delivering one list of words after another. -/
theorem deliverAll_append_of_next (ws later : List Word) (s u : State) (h : deliverAll ws s = .next u) :
    deliverAll (ws ++ later) s = deliverAll later u := by
  induction ws generalizing s with
  | nil =>
    cases h
    rfl
  | cons w ws ih =>
    obtain ⟨t, hdel⟩ := exists_deliver_next w s
    rw [deliverAll_cons_of_next w ws s t hdel] at h
    rw [List.cons_append, deliverAll_cons_of_next w _ s t hdel, ih t h]

/-- The faulted block discards any number of words. -/
theorem deliverAll_of_fault (ws : List Word) (s : State) (hf : s.fault = true) : deliverAll ws s = .next s := by
  induction ws with
  | nil => rfl
  | cons w ws ih => rw [deliverAll_cons_of_next w ws s s (deliver_of_fault w s hf), ih]

/-! ## The statements -/

/-- Settles O16: while `FAULT = 0` only a word that does not decode closes the latch, and the words that do not decode are
those of R102. -/
theorem illegalCommandExactly : Obligations.IllegalCommandExactly := by
  intro s w rest hp hf
  change ∃ t, step s = .next t ∧ (t.fault = true ↔ IllegalWord w)
  rw [← decode_error_iff w]
  cases hd : decode w with
  | error e => exact ⟨_, step_of_illegal s w rest e hp hf hd, iff_of_true rfl ⟨e, rfl⟩⟩
  | ok i =>
    obtain ⟨t, hexec, hfault, -⟩ := exec_latch i { s with pending := rest }
    exact ⟨t, (stepRunsTheDecodedInstruction s w rest i hp hf hd).trans hexec, by simp [hfault, hf]⟩

/-- Settles O17: the words before run to their end, the offending word sets the latch, the words after are discarded. -/
theorem exceptionEntry : Obligations.ExceptionEntry := by
  refine ⟨fun s w rest e hp hf hd => ?entry, fun earlier later w e s u hall hf hd => ?precise⟩
  case entry => exact ⟨_, step_of_illegal s w rest e hp hf hd, rfl, rfl, rfl, rfl, rfl, rfl, rfl, rfl, rfl⟩
  case precise =>
    calc deliverAll (earlier ++ w :: later) s = deliverAll (w :: later) u := deliverAll_append_of_next earlier _ s u hall
      _ = deliverAll later (u.raiseIllegal w) := deliverAll_cons_of_next w later u _ (deliver_of_error w u e hf hd)
      _ = .next (u.raiseIllegal w) := deliverAll_of_fault later _ (u.raiseIllegal_fault w)

/-- Settles O18. -/
theorem faultedBlockDiscards : Obligations.FaultedBlockDiscards := fun s hf =>
  ⟨fun w rest hp => (step_cons s _ rest hp).trans (deliver_of_fault w { s with pending := rest } hf),
    fun ws => deliverAll_of_fault ws s hf⟩

/-- Settles O2: the step is the reset, which keeps of the ports what is pending and what was received. -/
theorem resetEventWins : Obligations.ResetEventWins := fun s _ rest hp =>
  ⟨State.hostReset { s with pending := rest }, step_cons s _ rest hp, ⟨rfl, rfl, rfl, rfl⟩, rfl, rfl, rfl⟩

/-- Settles O19. -/
theorem legalCommandsNeverFault : Obligations.LegalCommandsNeverFault := exec_latch

/-- Settles O21. -/
theorem idleStepChangesNothing : Obligations.IdleStepChangesNothing := step_nil

end Sys2Proof.Machine
end

section
/-! SUPPORT. Reset and the schedule of steps (70_reset_and_hazards.md). -/

namespace Sys2Proof.Machine

/-- Settles O20, by what the host does next: with no event the block is idle (R115), reset and the output port answer at
once (R120, R125), and a delivered word is discarded, raises the exception or runs a command that finishes (R100, R104). -/
theorem everyStepFinishes : Obligations.EveryStepFinishes := by
  intro s
  obtain ⟨-, hidle⟩ | ⟨w, rest, -, hdeliver⟩ | ⟨o, rest, -, hreset⟩ | ⟨rest, -, htake⟩ := step_cases s
  · exact ⟨s, hidle⟩
  · rw [hdeliver]
    exact exists_deliver_next w { s with pending := rest }
  · exact ⟨_, hreset⟩
  · exact ⟨_, htake⟩

end Sys2Proof.Machine
end

section
/-! SUPPORT. The worked encodings (30_encoding.md, section 7): the decoder names the case of R102 it rejects a word for, and the
words the spec prints for its legal commands are the ones `encode` gives. -/

namespace Sys2Proof

/-! ## The reason a word is rejected for (R51, R102) -/

/-- Case (1) of R102, by name. -/
theorem decode_eq_unassignedOpcode (w : Word) (h : ∀ o : Opcode, opOf w ≠ o.code) :
    decode w = .error (.unassignedOpcode (opOf w)) := by
  have hnone : Opcode.ofCode (opOf w) = none :=
    Option.eq_none_iff_forall_ne_some.2 fun o ho => h o (Opcode.code_of_ofCode _ o ho).symm
  simp [decode, hnone]

/-- Case (2) of R102, by name. -/
theorem decode_eq_nonzeroMustBeZero (w : Word) (o : Opcode) (hop : opOf w = o.code)
    (hbits : w &&& (0#8 ++ o.mustBeZero) ≠ 0#32) : decode w = .error (.nonzeroMustBeZero o) := by
  have hrow : w &&& o.mask ≠ o.pattern := mt (row_iff_of_opOf w o hop).1 hbits
  simp [decode, hop, hrow]

/-! ## The statement -/

/-- Settles O11: each printed word of a command is the word `encode` gives it, which is its one legal word (R52). Of the three
rejected words, the first has a 1 in `rc` of `MUL`, the second a 1 in `rd` of `OUT`, and the third no row's operation code. -/
theorem workedEncodingsDecode : Obligations.WorkedEncodingsDecode := by
  refine ⟨?mul, ?divmul, ?lerp, ?prelerp, ?lerp4, ?s2l, ?l2s, ?qnt, ?ldi, ?ldih, ?out, ?mulNonzeroRc, ?outNonzeroRd, ?unassigned⟩
  case mulNonzeroRc => exact decode_eq_nonzeroMustBeZero _ .mul (by decide) (by decide)
  case outNonzeroRd => exact decode_eq_nonzeroMustBeZero _ .out (by decide) (by decide)
  case unassigned => exact decode_eq_unassignedOpcode _ fun o => by cases o <;> decide
  all_goals exact (decode_eq_ok_iff _ _).2 (by decide)

end Sys2Proof
end
